-- ==== Sys2Proof/Word.lean ====
section
/-! DEFINITION. The words of VZC: its registers, bytes and window offsets, and the two formats the host gives it
(spec/30_encoding.md R80, R81, R92, R93). -/

namespace Sys2Proof

/-- A register value, a 64-bit pattern (00_scope.md R8). -/
abbrev Word := BitVec 64

/-- A byte. Of a varint byte, bit 7 is the continuation flag and bits 6:0 are data (R8). -/
abbrev Byte := BitVec 8

/-- An offset into the 128-byte register window, off of R92 (`addr` of R93). -/
abbrev Offset := BitVec 7

/-- An encoded word in one of the two formats of R80. -/
inductive CodeWord where
  /-- CMD: a 64-bit command word, written to the CMD register (R81). -/
  | cmd (c : Word)
  /-- BUS: one host transaction as its 72-bit listing word `dir(1) | off(7) | data(64)` (R92). -/
  | bus (t : BitVec 72)
deriving DecidableEq, Repr

/-- One presented transaction as its signals carry it (R93). -/
structure Transaction where
  /-- `we`: true is WR, false is RD. -/
  we : Bool
  /-- `addr`: the window offset. -/
  off : Offset
  /-- `size`: the access moves 2^size bytes; only 3 (8 bytes) is permitted. -/
  size : BitVec 2
  /-- `wdata`: the data of a WR. -/
  wdata : Word
deriving DecidableEq, Repr

end Sys2Proof
end

