-- ==== Sys2Proof/Config.lean ====
section
/-! DEFINITION. The implementation parameters of spec/00_scope.md R7. -/

namespace Sys2Proof

/-- The widths W of the codec: 16, 32 and 64 bits, and no other (R3, R7). -/
inductive Width where
  | w16
  | w32
  | w64
deriving DecidableEq, Repr

/-- W as a number of bits (R82). -/
def Width.bits : Width → Nat
  | .w16 => 16
  | .w32 => 32
  | .w64 => 64

/-- The bytes of the register window (R7, R50). -/
def Config.windowBytes : Nat := 128

/-- The bytes of the input window IN_LO, IN_HI, and of the output window OUT_LO, OUT_HI: G(64) = 10 (R7). -/
def Config.byteWindow : Nat := 10

/-- Which multiple of the window size the platform chose for `VZC_BASE`: OPEN (R7, R50; D4). A constant with no
body, so every claim holds for every base (notes/assumptions/5.md). -/
opaque Config.vzcBaseIndex : Nat

/-- `VZC_BASE`, the base address of the window, a multiple of 128 (R50). -/
def Config.vzcBase : Nat := Config.windowBytes * Config.vzcBaseIndex

end Sys2Proof
end

