-- ==== Sys2Proof/Machine/Bits.lean ====
section
/-! DEFINITION. Bit fields, alignment and width extension (spec/00_scope.md R8, R10). -/

namespace Sys2Proof

/-- `x[hi:lo]` as a pattern of `hi - lo + 1` bits (R8). -/
def field {n : Nat} (x : BitVec n) (hi lo : Nat) : BitVec (hi - lo + 1) :=
  x.extractLsb hi lo

/-- An offset is a multiple of 8, `off[2:0] = 000` (R52, R92). -/
def isAligned (off : Offset) : Bool :=
  field off 2 0 == 0

/-- Byte `i` of a register, bits `8i+7 : 8i` (R58, R59). -/
def wordByte (w : Word) (i : Nat) : Byte :=
  w.extractLsb' (8 * i) 8

/-- zext_64 of R10: widen with zeros. -/
def zext64 {n : Nat} (v : BitVec n) : Word :=
  v.setWidth 64

/-- sext_64 of R10: widen with copies of the top bit. -/
def sext64 {n : Nat} (v : BitVec n) : Word :=
  v.signExtend 64

end Sys2Proof
end

