-- ==== Sys2Proof/Syntax.lean ====
section
/-! DEFINITION. The instructions of VZC, one constructor per row of spec/opcode_table.json: the 18 commands
(spec/30_encoding.md R85) and the two host transactions (spec/43_host_access.md R201, R202). -/

namespace Sys2Proof

inductive Instr where
  /-- VENC.U16, command word 0x11 (R120). -/
  | vencU16
  /-- VENC.U32, command word 0x12 (R121). -/
  | vencU32
  /-- VENC.U64, command word 0x13 (R122). -/
  | vencU64
  /-- VDEC.U16, command word 0x21 (R123). -/
  | vdecU16
  /-- VDEC.U32, command word 0x22 (R124). -/
  | vdecU32
  /-- VDEC.U64, command word 0x23 (R125). -/
  | vdecU64
  /-- VENC.S16, command word 0x31 (R172). -/
  | vencS16
  /-- VENC.S32, command word 0x32 (R173). -/
  | vencS32
  /-- VENC.S64, command word 0x33 (R174). -/
  | vencS64
  /-- VDEC.S16, command word 0x41 (R175). -/
  | vdecS16
  /-- VDEC.S32, command word 0x42 (R176). -/
  | vdecS32
  /-- VDEC.S64, command word 0x43 (R177). -/
  | vdecS64
  /-- ZZENC16, command word 0x51 (R146). -/
  | zzenc16
  /-- ZZENC32, command word 0x52 (R147). -/
  | zzenc32
  /-- ZZENC64, command word 0x53 (R148). -/
  | zzenc64
  /-- ZZDEC16, command word 0x61 (R149). -/
  | zzdec16
  /-- ZZDEC32, command word 0x62 (R150). -/
  | zzdec32
  /-- ZZDEC64, command word 0x63 (R151). -/
  | zzdec64
  /-- RD, a bus read at a window offset (R201). -/
  | rd (off : Offset)
  /-- WR, a bus write of `data` at a window offset (R202). -/
  | wr (off : Offset) (data : Word)
deriving DecidableEq, Repr

end Sys2Proof
end

