-- ==== Sys2Proof/WellFormed.lean ====
section
/-! DEFINITION. Which instruction terms are encodable: a transaction's offset has `off[2:0] = 000`
(spec/30_encoding.md R92); a command has no operand field (R81), so every command is well formed. -/

namespace Sys2Proof

/-- The one check on instruction terms (R52, R92). -/
def Instr.wellFormed : Instr → Bool
  | .vencU16 | .vencU32 | .vencU64 => true
  | .vdecU16 | .vdecU32 | .vdecU64 => true
  | .vencS16 | .vencS32 | .vencS64 => true
  | .vdecS16 | .vdecS32 | .vdecS64 => true
  | .zzenc16 | .zzenc32 | .zzenc64 => true
  | .zzdec16 | .zzdec32 | .zzdec64 => true
  | .rd off => isAligned off
  | .wr off _ => isAligned off

/-- Well-formedness as a proposition. -/
abbrev Instr.WellFormed (i : Instr) : Prop := i.wellFormed = true

end Sys2Proof
end

