-- ==== Sys2Proof/Decode.lean ====
section
/-! DEFINITION. Decoding, total on any word and rejecting by name, and the encoder (spec/30_encoding.md R80 to R92).
A command word decodes by its fields (R81 to R84); the encoder writes the words of the opcode map (R85). -/

namespace Sys2Proof

/-- The six operations of R83. -/
inductive Op where
  | vencU
  | vdecU
  | vencS
  | vdecS
  | zzenc
  | zzdec
deriving DecidableEq, Repr

/-- A legal command word's content: its operation and its width (R81). -/
structure Command where
  op : Op
  width : Width
deriving DecidableEq, Repr

/-- Why a transaction is not admitted (R52, R200; 93_implementation_defined.md rows 10 and 11). -/
inductive AdmissionError where
  /-- The access is not 64 bits wide. -/
  | narrow
  /-- The offset is not a multiple of 8. -/
  | misaligned
  /-- The address is outside the 128-byte window. -/
  | outsideWindow
deriving DecidableEq, Repr

/-- Why a word is no instruction. -/
inductive DecodeError where
  /-- A CMD word that R84 does not make legal; whichever field makes it so, it is one case (R86, R225). -/
  | illegalCommand
  /-- A BUS word that is no admitted transaction. -/
  | notAdmitted (why : AdmissionError)
deriving DecidableEq, Repr

/-- OP, bits 7:4 (R83). 0x0 and 0x7 to 0xF are reserved. -/
def Op.ofBits (o : BitVec 4) : Option Op :=
  if o = 0x1 then some .vencU
  else if o = 0x2 then some .vdecU
  else if o = 0x3 then some .vencS
  else if o = 0x4 then some .vdecS
  else if o = 0x5 then some .zzenc
  else if o = 0x6 then some .zzdec
  else none

/-- WIDTH, bits 1:0 (R82). 00 is reserved. -/
def Width.ofBits (w : BitVec 2) : Option Width :=
  if w = 0b01 then some .w16
  else if w = 0b10 then some .w32
  else if w = 0b11 then some .w64
  else none

/-- The command a CMD word stands for: RSVH and RSVL zero, OP and WIDTH not reserved (R81, R84). -/
def decodeCommand (c : Word) : Option Command :=
  if field c 63 8 = 0 ∧ field c 3 2 = 0 then
    match Op.ofBits (field c 7 4), Width.ofBits (field c 1 0) with
    | some op, some width => some ⟨op, width⟩
    | _, _ => none
  else none

/-- The instruction of an operation and a width (R85). -/
def Command.toInstr : Command → Instr
  | ⟨.vencU, .w16⟩ => .vencU16
  | ⟨.vencU, .w32⟩ => .vencU32
  | ⟨.vencU, .w64⟩ => .vencU64
  | ⟨.vdecU, .w16⟩ => .vdecU16
  | ⟨.vdecU, .w32⟩ => .vdecU32
  | ⟨.vdecU, .w64⟩ => .vdecU64
  | ⟨.vencS, .w16⟩ => .vencS16
  | ⟨.vencS, .w32⟩ => .vencS32
  | ⟨.vencS, .w64⟩ => .vencS64
  | ⟨.vdecS, .w16⟩ => .vdecS16
  | ⟨.vdecS, .w32⟩ => .vdecS32
  | ⟨.vdecS, .w64⟩ => .vdecS64
  | ⟨.zzenc, .w16⟩ => .zzenc16
  | ⟨.zzenc, .w32⟩ => .zzenc32
  | ⟨.zzenc, .w64⟩ => .zzenc64
  | ⟨.zzdec, .w16⟩ => .zzdec16
  | ⟨.zzdec, .w32⟩ => .zzdec32
  | ⟨.zzdec, .w64⟩ => .zzdec64

/-- A presented transaction as the host's instruction, when it is admitted: it moves 64 bits and `off[2:0] = 000`
(R200). The data of a read is ignored (R92). -/
def decodeTransaction (t : Transaction) : Except AdmissionError Instr :=
  if t.size ≠ 3 then .error .narrow
  else if !isAligned t.off then .error .misaligned
  else if t.we then .ok (.wr t.off t.wdata)
  else .ok (.rd t.off)

/-- The transaction a 72-bit listing word shows: bit 71 is dir, bits 70:64 are off, bits 63:0 are data (R92). Every
BUS record moves 64 bits. -/
def transactionOfBus (t : BitVec 72) : Transaction :=
  { we := t.getLsbD 71, off := field t 70 64, size := 3, wdata := field t 63 0 }

/-- The decoder: total on every word of both formats. -/
def decode : CodeWord → Except DecodeError Instr
  | .cmd c =>
    match decodeCommand c with
    | some k => .ok k.toInstr
    | none => .error .illegalCommand
  | .bus t =>
    match decodeTransaction (transactionOfBus t) with
    | .ok i => .ok i
    | .error e => .error (.notAdmitted e)

/-- The word of a transaction, `dir(1) | off(7) | data(64)` (R92). -/
def busWord (dir : BitVec 1) (off : Offset) (data : Word) : BitVec 72 :=
  dir ++ off ++ data

/-- The encoder: the 18 words of the opcode map (R85), and the BUS record with 0 in the data of a read (R92). -/
def encode : Instr → CodeWord
  | .vencU16 => .cmd 0x11
  | .vencU32 => .cmd 0x12
  | .vencU64 => .cmd 0x13
  | .vdecU16 => .cmd 0x21
  | .vdecU32 => .cmd 0x22
  | .vdecU64 => .cmd 0x23
  | .vencS16 => .cmd 0x31
  | .vencS32 => .cmd 0x32
  | .vencS64 => .cmd 0x33
  | .vdecS16 => .cmd 0x41
  | .vdecS32 => .cmd 0x42
  | .vdecS64 => .cmd 0x43
  | .zzenc16 => .cmd 0x51
  | .zzenc32 => .cmd 0x52
  | .zzenc64 => .cmd 0x53
  | .zzdec16 => .cmd 0x61
  | .zzdec32 => .cmd 0x62
  | .zzdec64 => .cmd 0x63
  | .rd off => .bus (busWord 0 off 0)
  | .wr off data => .bus (busWord 1 off data)

/-- The one bus transaction by which the host issues an encoded word: a command word is written to CMD at offset 0x00
(R80, R95), a BUS record is the transaction it shows (R92). -/
def CodeWord.transaction : CodeWord → Transaction
  | .cmd c => { we := true, off := 0x00, size := 3, wdata := c }
  | .bus t => transactionOfBus t

/-- A row's word as opcode_table.json numbers its bits: rows of 64 bits are CMD words, rows of 72 bits BUS words. -/
def tableWord (nbits w : Nat) : Option CodeWord :=
  if nbits ≤ 64 then some (.cmd (BitVec.ofNat 64 w))
  else if nbits ≤ 72 then some (.bus (BitVec.ofNat 72 w))
  else none

/-- The instruction the decoder reads from a word of opcode_table.json; none where it refuses. -/
def decodeTableWord (nbits w : Nat) : Option Instr :=
  match tableWord nbits w with
  | none => none
  | some cw =>
    match decode cw with
    | .ok i => some i
    | .error _ => none

end Sys2Proof
end

