-- ==== Sys2Proof/Machine/State.lean ====
section
/-! DEFINITION. The state of the block (spec/10_state.md R20), the host's side of its port (spec/30_encoding.md R93),
the reasons a step can stop, and the state after reset (spec/70_reset_and_hazards.md R250). -/

namespace Sys2Proof.Machine

/-- The architectural state of VZC: exactly the record of R20. -/
structure Block where
  /-- CMD: the last word written, legal or not (R21). -/
  cmd : Word
  /-- STATUS[0], the block's only flag (R22, R33). -/
  ill : Bool
  /-- OPERAND (R23). -/
  operand : Word
  /-- IN_LO: input bytes 0 to 7 (R24). -/
  inLo : Word
  /-- IN_HI: input bytes 8 and 9 in bits 15:0; all 64 bits are stored (R24). -/
  inHi : Word
  /-- IN_AVAIL: the number of valid input bytes (R24). -/
  inAvail : Word
  /-- OUT_LO: output bytes 0 to 7 (R25). -/
  outLo : Word
  /-- OUT_HI[15:0]: output bytes 8 and 9 (R26). -/
  outHi : BitVec 16
  /-- COUNT[3:0], 0 to 10 (R27). -/
  count : BitVec 4
  /-- RESULT (R28). -/
  result : Word
deriving DecidableEq, Repr

/-- The registers of the window map (R51); the six reserved offsets are one case (R56). -/
inductive Reg where
  | cmd
  | status
  | operand
  | inLo
  | inHi
  | inAvail
  | outLo
  | outHi
  | count
  | result
  | reserved
deriving DecidableEq, Repr

/-- What reaches the block from outside (R93). -/
inductive PortEvent where
  /-- `rst`: reset, between transactions (R250, R252). -/
  | reset
  /-- `req`: a transaction is presented. -/
  | access (t : Transaction)
deriving DecidableEq, Repr

/-- The machine: the block, and the host's side of its port. Only `block` is state of VZC (R20). -/
structure State where
  /-- The block's state. -/
  block : Block
  /-- The inputs the host has presented and the block has not yet served, in the order of issue: the block's program
  is the order of the host's transactions (R32, R61). Not state of the block (notes/assumptions/1.md). -/
  pending : List PortEvent
  /-- `rdata` (R93): what the last served input returned, `none` unless it was a read. Not state of the block
  (notes/assumptions/2.md). -/
  rdata : Option Word
deriving DecidableEq, Repr

/-- The block raises no exception and takes no trap (R220, R226), and its codec cannot index outside its inputs
(R223): there is no fault for anything to raise (notes/assumptions/8.md). -/
inductive Fault where
deriving DecidableEq, Repr

/-- Why a step has no meaning. -/
inductive Refusal where
  /-- Raised by an arm of exec whose instruction has no meaning yet. Safe. No arm raises it. -/
  | notModelled (mnemonic : String)
  /-- Raised by step when the host has presented nothing: no step happens without a transaction (R200). Safe. -/
  | noTransaction
  /-- Raised by RD and WR at a misaligned offset, by step for a narrow access, and by the platform for an address
  outside the window: the transaction is not admitted and has no step (R52, R200; 93 rows 10 and 11). Safe. -/
  | notAdmitted (why : AdmissionError)
deriving DecidableEq, Repr

/-- The answers of the machine. -/
abbrev Answer := Host.Outcome State Fault Refusal

/-- The block after reset: every register 0, no command performed (R250). -/
def Block.reset : Block where
  cmd := 0
  ill := false
  operand := 0
  inLo := 0
  inHi := 0
  inAvail := 0
  outLo := 0
  outHi := 0
  count := 0
  result := 0

/-- The machine right after reset: the block of R250, with nothing presented and nothing read. -/
def State.reset : State where
  block := Block.reset
  pending := []
  rdata := none

end Sys2Proof.Machine
end

