-- ==== Sys2Proof/Machine/Flags.lean ====
section
/-! DEFINITION. STATUS and its one flag ILL (spec/10_state.md R22, R33). ILL is the block's whole record of an
abnormal word: there is no exception entry and no return from one (spec/60_exceptions.md R220, R226, R227). -/

namespace Sys2Proof.Machine

/-- `set ILL`: the illegal command word's one effect; sticky (R22, R222). -/
def Block.setIll (b : Block) : Block :=
  { b with ill := true }

/-- STATUS as it reads: ILL in bit 0, bits 63:1 zero (R22). -/
def Block.status (b : Block) : Word :=
  zext64 (BitVec.ofBool b.ill)

/-- A write to STATUS: bit 0 = 1 clears ILL, every other bit is ignored (R22, R55). -/
def Block.writeStatus (b : Block) (v : Word) : Block :=
  if v.getLsbD 0 then { b with ill := false } else b

end Sys2Proof.Machine
end

