-- ==== Sys2Proof/Machine/Codec.lean ====
section
/-! DEFINITION. The codec functions: unsigned varint (spec/40_varint_unsigned.md R110, R113), zigzag
(spec/41_zigzag.md R140, R142) and their compositions (spec/42_varint_signed.md R170, R171). Pure functions of a width
W in bits. -/

namespace Sys2Proof.Machine

/-- G(W) = ceil(W/7): the most groups of an encoding, and the most bytes a decode reads (00_scope.md R6). -/
def groups (W : Nat) : Nat := (W + 6) / 7

/-- The loop of R110 for at most `n` groups: the next 7 bits, least significant group first, with bit 7 set while
more groups follow. -/
def encodeGroups : (n u : Nat) → List Byte
  | 0, _ => []
  | n + 1, u =>
    if u / 128 = 0 then [BitVec.ofNat 8 (u % 128)]
    else BitVec.ofNat 8 (u % 128 + 128) :: encodeGroups n (u / 128)

/-- encode_varint_W (R110). G(W) groups are enough for every W-bit value (R111), so the bound is never met. -/
def encodeVarint (W : Nat) (u : BitVec W) : List Byte :=
  encodeGroups (groups W) u.toNat

/-- The loop of R113 from byte `i` on, with `n` groups left to read: the number of bytes consumed and the exact sum
of the groups, or none where the input ends first or no byte terminates. -/
def decodeGroups : (n i acc : Nat) → List Byte → Option (Nat × Nat)
  | 0, _, _, _ => none
  | _ + 1, _, _, [] => none
  | n + 1, i, acc, b :: seq =>
    let acc' := acc + (field b 6 0).toNat * 2 ^ (7 * i)
    if b.getLsbD 7 then decodeGroups n (i + 1) acc' seq else some (i + 1, acc')

/-- decode_varint_W (R113): the sum modulo 2^W (R115), or the sentinel (0, 0) (R114). -/
def decodeVarint (W : Nat) (seq : List Byte) : Nat × BitVec W :=
  match decodeGroups (groups W) 0 0 seq with
  | some (consumed, sum) => (consumed, BitVec.ofNat W sum)
  | none => (0, 0)

/-- zigzag_encode_W (R140): on W bits, with an arithmetic right shift (R145). -/
def zigzagEncode (W : Nat) (p : BitVec W) : BitVec W :=
  (p <<< 1) ^^^ p.sshiftRight (W - 1)

/-- zigzag_decode_W (R142): the right shift is logical. -/
def zigzagDecode (W : Nat) (q : BitVec W) : BitVec W :=
  (q >>> 1) ^^^ (-(q &&& 1))

/-- encode_svarint_W (R170): zigzag first, then varint. -/
def encodeSvarint (W : Nat) (p : BitVec W) : List Byte :=
  encodeVarint W (zigzagEncode W p)

/-- decode_svarint_W (R171): varint first, then the inverse zigzag of the value. -/
def decodeSvarint (W : Nat) (seq : List Byte) : Nat × BitVec W :=
  let r := decodeVarint W seq
  (r.1, zigzagDecode W r.2)

end Sys2Proof.Machine
end

