-- ==== Sys2Proof/Machine/Operands.lean ====
section
/-! DEFINITION. Every operand and result form: the value operand (spec/30_encoding.md R87), the byte operand (R88),
the packing of bytes into registers (R58, R90), and the register an offset names (spec/20_memory.md R51). -/

namespace Sys2Proof.Machine

/-- The value operand `OPERAND[W-1:0]`; bits 63:W are ignored (R87). -/
def Block.operandOf (b : Block) (W : Nat) : BitVec W :=
  b.operand.setWidth W

/-- in_byte(i), for i from 0 to 9 (R88). -/
def Block.inByte (b : Block) (i : Nat) : Byte :=
  if i < 8 then wordByte b.inLo i else wordByte b.inHi (i - 8)

/-- A = min(IN_AVAIL, 10), the bytes available to the decoder (R88). -/
def Block.available (b : Block) : Nat :=
  min b.inAvail.toNat Config.byteWindow

/-- The input sequence `[in_byte(0), ..., in_byte(A-1)]` (R88). -/
def Block.inputSeq (b : Block) : List Byte :=
  (List.range b.available).map b.inByte

/-- Output byte i, for i from 0 to 9, as it sits in OUT_LO and OUT_HI (R58). -/
def Block.outByte (b : Block) (i : Nat) : Byte :=
  if i < 8 then wordByte b.outLo i else wordByte (zext64 b.outHi) (i - 8)

/-- The sum of `zext(s[i]) << 8i` over the bytes of a sequence (R90). -/
def packBytes (n : Nat) : List Byte → BitVec n
  | [] => 0
  | b :: s => b.setWidth n + packBytes n s <<< 8

/-- The register at a window offset; none where the offset is not a multiple of 8 (R51, R52). -/
def regAt (off : Offset) : Option Reg :=
  if !isAligned off then none
  else if off = 0x00 then some .cmd
  else if off = 0x08 then some .status
  else if off = 0x10 then some .operand
  else if off = 0x18 then some .inLo
  else if off = 0x20 then some .inHi
  else if off = 0x28 then some .inAvail
  else if off = 0x30 then some .outLo
  else if off = 0x38 then some .outHi
  else if off = 0x40 then some .count
  else if off = 0x48 then some .result
  else some .reserved

end Sys2Proof.Machine
end

