-- ==== Sys2Proof/Machine/Ops.lean ====
section
/-! DEFINITION. The shared operations: latching results (spec/30_encoding.md R89, R90), reading a register
(spec/43_host_access.md R201), serving the host's inputs (R200) and reset (spec/70_reset_and_hazards.md R250). The
spec's block has no memory and no exception entry (spec/10_state.md R35; spec/60_exceptions.md R226). -/

namespace Sys2Proof.Machine

/-- pack(s) of R203: the encode commands' result, in OUT_LO, OUT_HI and COUNT (R90). -/
def Block.pack (b : Block) (s : List Byte) : Block :=
  { b with
    outLo := packBytes 64 (s.take 8)
    outHi := packBytes 16 (s.drop 8)
    count := BitVec.ofNat 4 s.length }

/-- The zigzag commands' result, in RESULT alone (R29, R89). -/
def Block.setResult (b : Block) (v : Word) : Block :=
  { b with result := v }

/-- The decode commands' result, in COUNT and RESULT (R29). -/
def Block.setDecoded (b : Block) (consumed : Nat) (v : Word) : Block :=
  { b with count := BitVec.ofNat 4 consumed, result := v }

/-- The 64-bit value a register reads as; bits that hold no state, and the reserved offsets, read 0 (R201). -/
def Block.read (b : Block) : Reg → Word
  | .cmd => b.cmd
  | .status => b.status
  | .operand => b.operand
  | .inLo => b.inLo
  | .inHi => b.inHi
  | .inAvail => b.inAvail
  | .outLo => b.outLo
  | .outHi => zext64 b.outHi
  | .count => zext64 b.count
  | .result => b.result
  | .reserved => 0

/-- The machine with its block changed by `f` and nothing else. -/
def State.onBlock (s : State) (f : Block → Block) : State :=
  { s with block := f s.block }

/-- A read answers the host with `v` (R93). -/
def State.answer (s : State) (v : Word) : State :=
  { s with rdata := some v }

/-- The machine as it begins to serve the first pending input: the input is taken, nothing is answered yet. -/
def State.accept (s : State) (rest : List PortEvent) : State :=
  { s with pending := rest, rdata := none }

/-- Reset, a step of its own: the whole state of R250, acting on what the last completed transaction left (R252). -/
def State.resetBlock (s : State) : State :=
  { s with block := Block.reset }

/-- The host presents an input after those already presented (R61, R93). -/
def State.present (s : State) (e : PortEvent) : State :=
  { s with pending := s.pending ++ [e] }

/-- The host presents an input before every other: the next step serves it. -/
def State.presentFirst (s : State) (e : PortEvent) : State :=
  { s with pending := e :: s.pending }

end Sys2Proof.Machine
end

