-- ==== Sys2Proof/Machine/VarintSigned.lean ====
section
/-! DEFINITION. The signed varint commands (spec/42_varint_signed.md R172 to R177): the compositions of R170 and R171
over the operands and results of the unsigned ones, with a decoded value sign-extended (spec/30_encoding.md R89). -/

namespace Sys2Proof.Machine

/-- VENC.S16 (R172). -/
def execVencS16 (s : State) : Answer :=
  .next (s.onBlock fun b => b.pack (encodeSvarint 16 (b.operandOf 16)))

/-- VENC.S32 (R173). -/
def execVencS32 (s : State) : Answer :=
  .next (s.onBlock fun b => b.pack (encodeSvarint 32 (b.operandOf 32)))

/-- VENC.S64 (R174). -/
def execVencS64 (s : State) : Answer :=
  .next (s.onBlock fun b => b.pack (encodeSvarint 64 (b.operandOf 64)))

/-- VDEC.S16 (R175). -/
def execVdecS16 (s : State) : Answer :=
  .next (s.onBlock fun b =>
    let r := decodeSvarint 16 b.inputSeq
    b.setDecoded r.1 (sext64 r.2))

/-- VDEC.S32 (R176). -/
def execVdecS32 (s : State) : Answer :=
  .next (s.onBlock fun b =>
    let r := decodeSvarint 32 b.inputSeq
    b.setDecoded r.1 (sext64 r.2))

/-- VDEC.S64 (R177). -/
def execVdecS64 (s : State) : Answer :=
  .next (s.onBlock fun b =>
    let r := decodeSvarint 64 b.inputSeq
    b.setDecoded r.1 (sext64 r.2))

end Sys2Proof.Machine
end

