-- ==== Sys2Proof/Machine/VarintUnsigned.lean ====
section
/-! DEFINITION. The unsigned varint commands (spec/40_varint_unsigned.md R120 to R125). Each writes no flag and raises
nothing; an encode writes OUT_LO, OUT_HI and COUNT, a decode COUNT and RESULT (spec/10_state.md R29). -/

namespace Sys2Proof.Machine

/-- VENC.U16 (R120). -/
def execVencU16 (s : State) : Answer :=
  .next (s.onBlock fun b => b.pack (encodeVarint 16 (b.operandOf 16)))

/-- VENC.U32 (R121). -/
def execVencU32 (s : State) : Answer :=
  .next (s.onBlock fun b => b.pack (encodeVarint 32 (b.operandOf 32)))

/-- VENC.U64 (R122). -/
def execVencU64 (s : State) : Answer :=
  .next (s.onBlock fun b => b.pack (encodeVarint 64 (b.operandOf 64)))

/-- VDEC.U16 (R123). -/
def execVdecU16 (s : State) : Answer :=
  .next (s.onBlock fun b =>
    let r := decodeVarint 16 b.inputSeq
    b.setDecoded r.1 (zext64 r.2))

/-- VDEC.U32 (R124). -/
def execVdecU32 (s : State) : Answer :=
  .next (s.onBlock fun b =>
    let r := decodeVarint 32 b.inputSeq
    b.setDecoded r.1 (zext64 r.2))

/-- VDEC.U64 (R125). -/
def execVdecU64 (s : State) : Answer :=
  .next (s.onBlock fun b =>
    let r := decodeVarint 64 b.inputSeq
    b.setDecoded r.1 (zext64 r.2))

end Sys2Proof.Machine
end

