-- ==== Sys2Proof/Machine/Zigzag.lean ====
section
/-! DEFINITION. The zigzag commands (spec/41_zigzag.md R146 to R151). Each writes RESULT and nothing else: the code
zero-extended, the signed value sign-extended (spec/30_encoding.md R89). -/

namespace Sys2Proof.Machine

/-- ZZENC16 (R146). -/
def execZzenc16 (s : State) : Answer :=
  .next (s.onBlock fun b => b.setResult (zext64 (zigzagEncode 16 (b.operandOf 16))))

/-- ZZENC32 (R147). -/
def execZzenc32 (s : State) : Answer :=
  .next (s.onBlock fun b => b.setResult (zext64 (zigzagEncode 32 (b.operandOf 32))))

/-- ZZENC64 (R148). -/
def execZzenc64 (s : State) : Answer :=
  .next (s.onBlock fun b => b.setResult (zext64 (zigzagEncode 64 (b.operandOf 64))))

/-- ZZDEC16 (R149). -/
def execZzdec16 (s : State) : Answer :=
  .next (s.onBlock fun b => b.setResult (sext64 (zigzagDecode 16 (b.operandOf 16))))

/-- ZZDEC32 (R150). -/
def execZzdec32 (s : State) : Answer :=
  .next (s.onBlock fun b => b.setResult (sext64 (zigzagDecode 32 (b.operandOf 32))))

/-- ZZDEC64 (R151). -/
def execZzdec64 (s : State) : Answer :=
  .next (s.onBlock fun b => b.setResult (sext64 (zigzagDecode 64 (b.operandOf 64))))

end Sys2Proof.Machine
end

