-- ==== Sys2Proof/Machine/HostAccess.lean ====
section
/-! DEFINITION. The two host transactions and command dispatch (spec/43_host_access.md R201 to R203), and the window
as the platform sees it (spec/20_memory.md R50, R59). -/

namespace Sys2Proof.Machine

/-- The meaning of a legal command: the rule of its own (R203). -/
def runCommand (k : Command) (s : State) : Answer :=
  match k.op, k.width with
  | .vencU, .w16 => execVencU16 s
  | .vencU, .w32 => execVencU32 s
  | .vencU, .w64 => execVencU64 s
  | .vdecU, .w16 => execVdecU16 s
  | .vdecU, .w32 => execVdecU32 s
  | .vdecU, .w64 => execVdecU64 s
  | .vencS, .w16 => execVencS16 s
  | .vencS, .w32 => execVencS32 s
  | .vencS, .w64 => execVencS64 s
  | .vdecS, .w16 => execVdecS16 s
  | .vdecS, .w32 => execVdecS32 s
  | .vdecS, .w64 => execVdecS64 s
  | .zzenc, .w16 => execZzenc16 s
  | .zzenc, .w32 => execZzenc32 s
  | .zzenc, .w64 => execZzenc64 s
  | .zzdec, .w16 => execZzdec16 s
  | .zzdec, .w32 => execZzdec32 s
  | .zzdec, .w64 => execZzdec64 s

/-- perform(c) of R203: a legal word is performed in full; any other sets ILL and nothing else (R222, R225). -/
def perform (c : Word) (s : State) : Answer :=
  match decodeCommand c with
  | some k => runCommand k s
  | none => .next (s.onBlock Block.setIll)

/-- RD: BusRead(off) of R201. It answers the host and leaves the block as it is (R54). A misaligned read is refused
(R200). -/
def execRd (off : Offset) (s : State) : Answer :=
  match regAt off with
  | none => .refused (.notAdmitted .misaligned)
  | some r => .next (s.answer (s.block.read r))

/-- WR: BusWrite(off, v) of R202. A write to CMD stores the word and performs it in the same transaction (R203); a
write to a read-only or reserved offset changes nothing (R55, R56). A misaligned write is refused (R200). -/
def execWr (off : Offset) (v : Word) (s : State) : Answer :=
  match regAt off with
  | none => .refused (.notAdmitted .misaligned)
  | some .cmd => perform v (s.onBlock fun b => { b with cmd := v })
  | some .status => .next (s.onBlock fun b => b.writeStatus v)
  | some .operand => .next (s.onBlock fun b => { b with operand := v })
  | some .inLo => .next (s.onBlock fun b => { b with inLo := v })
  | some .inHi => .next (s.onBlock fun b => { b with inHi := v })
  | some .inAvail => .next (s.onBlock fun b => { b with inAvail := v })
  | some .outLo => .next s
  | some .outHi => .next s
  | some .count => .next s
  | some .result => .next s
  | some .reserved => .next s

/-- An access of the platform's bus to a full address, before the window is selected (R50). -/
structure HostAccess where
  we : Bool
  addr : Nat
  size : BitVec 2
  wdata : Word
deriving DecidableEq, Repr

/-- The offset of an address in the window `base` to `base + 0x7F`; none outside it (R50). -/
def windowOffset (base addr : Nat) : Option Offset :=
  if base ≤ addr ∧ addr < base + Config.windowBytes then some (BitVec.ofNat 7 (addr - base)) else none

/-- The host accesses the platform's address `a.addr`: inside the window at `VZC_BASE` the transaction is presented
to the block; outside it, it is no VZC transaction and is refused (93_implementation_defined.md row 11). -/
def State.hostAccess (s : State) (a : HostAccess) : Answer :=
  match windowOffset Config.vzcBase a.addr with
  | none => .refused (.notAdmitted .outsideWindow)
  | some off => .next (s.present (.access { we := a.we, off := off, size := a.size, wdata := a.wdata }))

/-- The byte lane at window address `base + k`, for `k` below 128, where a platform exposes the registers as bytes:
byte `k mod 8` of the register at `k` rounded down to a multiple of 8, little-endian (R59). A view only: no
transaction moves one byte (R52). -/
def Block.windowByte (b : Block) (k : Nat) : Byte :=
  match regAt (BitVec.ofNat 7 (8 * (k / 8))) with
  | some r => wordByte (b.read r) (k % 8)
  | none => 0

end Sys2Proof.Machine
end

