-- ==== Sys2Proof/Machine/Dispatch.lean ====
section
/-! DEFINITION. One arm per instruction: its meaning, by name. -/

namespace Sys2Proof.Machine

def exec (i : Instr) (s : State) : Host.Outcome State Fault Refusal :=
  match i with
  -- unsigned varint (spec/40_varint_unsigned.md)
  | .vencU16 => Sys2Proof.Machine.execVencU16 s
  | .vencU32 => Sys2Proof.Machine.execVencU32 s
  | .vencU64 => Sys2Proof.Machine.execVencU64 s
  | .vdecU16 => Sys2Proof.Machine.execVdecU16 s
  | .vdecU32 => Sys2Proof.Machine.execVdecU32 s
  | .vdecU64 => Sys2Proof.Machine.execVdecU64 s
  -- signed varint (spec/42_varint_signed.md)
  | .vencS16 => Sys2Proof.Machine.execVencS16 s
  | .vencS32 => Sys2Proof.Machine.execVencS32 s
  | .vencS64 => Sys2Proof.Machine.execVencS64 s
  | .vdecS16 => Sys2Proof.Machine.execVdecS16 s
  | .vdecS32 => Sys2Proof.Machine.execVdecS32 s
  | .vdecS64 => Sys2Proof.Machine.execVdecS64 s
  -- zigzag (spec/41_zigzag.md)
  | .zzenc16 => Sys2Proof.Machine.execZzenc16 s
  | .zzenc32 => Sys2Proof.Machine.execZzenc32 s
  | .zzenc64 => Sys2Proof.Machine.execZzenc64 s
  | .zzdec16 => Sys2Proof.Machine.execZzdec16 s
  | .zzdec32 => Sys2Proof.Machine.execZzdec32 s
  | .zzdec64 => Sys2Proof.Machine.execZzdec64 s
  -- host transactions (spec/43_host_access.md)
  | .rd off => Sys2Proof.Machine.execRd off s
  | .wr off data => Sys2Proof.Machine.execWr off data s

end Sys2Proof.Machine
end

