-- ==== Sys2Proof/Machine/Step.lean ====
section
/-! DEFINITION. One step: the block serves the first presented input in full (spec/43_host_access.md R200). -/

namespace Sys2Proof.Machine

/-- The step. A presented transaction is decoded and, when admitted, performed in full, with its input taken and
nothing answered yet; one that is not admitted is refused (R52, R200). Reset is a step of its own (R252). With
nothing presented there is no step (R200). -/
def step (s : State) : Host.Outcome State Fault Refusal :=
  match s.pending with
  | [] => .refused .noTransaction
  | .reset :: rest => .next (s.accept rest).resetBlock
  | .access t :: rest =>
    match decodeTransaction t with
    | .ok i => exec i (s.accept rest)
    | .error why => .refused (.notAdmitted why)

/-- `s` with the instruction of a table word presented, so that the next step runs it: a BUS word is its transaction,
a CMD word is written to CMD (30_encoding.md R80, R95; notes/assumptions/10.md). -/
def State.withFetchWord (s : State) (nbits w : Nat) : State :=
  match tableWord nbits w with
  | some cw => s.presentFirst (.access cw.transaction)
  | none => s

end Sys2Proof.Machine
end

