-- ==== Sys2Proof/Machine/Assembly.lean ====
section
/-! DEFINITION. The host's assembly lines (spec/30_encoding.md R94) and the pseudo-instructions (R95): each line is
one bus transaction. -/

namespace Sys2Proof.Machine

/-- The register names of R51 and their offsets. -/
def regNames : List (List Char × Offset) :=
  [("CMD".toList, 0x00), ("STATUS".toList, 0x08), ("OPERAND".toList, 0x10), ("IN_LO".toList, 0x18),
   ("IN_HI".toList, 0x20), ("IN_AVAIL".toList, 0x28), ("OUT_LO".toList, 0x30), ("OUT_HI".toList, 0x38),
   ("COUNT".toList, 0x40), ("RESULT".toList, 0x48)]

/-- The pseudo-instructions of R95 that write a command word to CMD. -/
def commandNames : List (List Char × Word) :=
  [("venc.u16".toList, 0x11), ("venc.u32".toList, 0x12), ("venc.u64".toList, 0x13),
   ("vdec.u16".toList, 0x21), ("vdec.u32".toList, 0x22), ("vdec.u64".toList, 0x23),
   ("venc.s16".toList, 0x31), ("venc.s32".toList, 0x32), ("venc.s64".toList, 0x33),
   ("vdec.s16".toList, 0x41), ("vdec.s32".toList, 0x42), ("vdec.s64".toList, 0x43),
   ("zzenc16".toList, 0x51), ("zzenc32".toList, 0x52), ("zzenc64".toList, 0x53),
   ("zzdec16".toList, 0x61), ("zzdec32".toList, 0x62), ("zzdec64".toList, 0x63)]

/-- The value of a digit below `base`, which is 10 or 16. -/
def digit (base : Nat) (c : Char) : Option Nat :=
  let n := c.toNat
  let d :=
    if 48 ≤ n ∧ n ≤ 57 then n - 48
    else if 97 ≤ n ∧ n ≤ 102 then n - 87
    else if 65 ≤ n ∧ n ≤ 70 then n - 55
    else base
  if d < base then some d else none

/-- The number a list of digits shows, after the digits already read. -/
def digits (base : Nat) : (read : Nat) → List Char → Option Nat
  | n, [] => some n
  | n, c :: cs =>
    match digit base c with
    | some d => digits base (base * n + d) cs
    | none => none

/-- A decimal or `0x` hexadecimal natural number. -/
def number : List Char → Option Nat
  | [] => none
  | ['0', 'x'] => none
  | '0' :: 'x' :: cs => digits 16 0 cs
  | cs => digits 10 0 cs

/-- `<imm>`: a decimal or `0x` hexadecimal integer; a negative decimal n means bits_64(n) (R94). -/
def immediate : List Char → Option Word
  | '-' :: '0' :: 'x' :: _ => none
  | '-' :: cs => (number cs).map fun n => BitVec.ofInt 64 (-(n : Int))
  | cs => (number cs).map fun n => BitVec.ofInt 64 (n : Int)

/-- `<REG>`: a register name, or an offset written as a number (R94). -/
def register (cs : List Char) : Option Offset :=
  match regNames.lookup cs with
  | some off => some off
  | none =>
    match number cs with
    | some n => if n < Config.windowBytes then some (BitVec.ofNat 7 n) else none
    | none => none

/-- The words of a line: `;` starts a comment, blanks and commas separate (R94). `word` holds the letters of the word
being read, last letter first. -/
def words : (word : List Char) → List Char → List (List Char)
  | word, [] => if word.isEmpty then [] else [word.reverse]
  | word, c :: cs =>
    if c = ';' then (if word.isEmpty then [] else [word.reverse])
    else if c = ' ' ∨ c = ',' ∨ c = '\t' then
      (if word.isEmpty then words [] cs else word.reverse :: words [] cs)
    else words (c :: word) cs

/-- BusWrite(off, v) and BusRead(off) as presented transactions (R11, R92). -/
def busWrite (off : Offset) (v : Word) : Transaction :=
  { we := true, off := off, size := 3, wdata := v }

/-- BusRead(off), with data 0 (R92). -/
def busRead (off : Offset) : Transaction :=
  { we := false, off := off, size := 3, wdata := 0 }

/-- The one transaction a line of a host program stands for (R94, R95); none for a line that is no such line. -/
def assemble (line : String) : Option Transaction :=
  match words [] line.toList with
  | [op, a, v] =>
    if op = "wr".toList then
      match register a, immediate v with
      | some off, some imm => some (busWrite off imm)
      | _, _ => none
    else none
  | [op, a] =>
    if op = "rd".toList then (register a).map busRead
    else if op = "cmd".toList then (immediate a).map (busWrite 0x00)
    else none
  | [op] =>
    if op = "clrill".toList then some (busWrite 0x08 0x1)
    else (commandNames.lookup op).map (busWrite 0x00)
  | _ => none

end Sys2Proof.Machine
end

