-- ==== Sys2Proof/Safety.lean ====
section
/-! DEFINITION. What counts as a safe run, in the terms claims use: the invariants of spec/10_state.md R37, admitted
inputs (spec/43_host_access.md R200), and runs without a refusal. -/

namespace Sys2Proof.Machine

/-- COUNT is from 0 to 10 (R27, R37). -/
def Block.CountInRange (b : Block) : Prop := b.count.toNat ≤ 10

/-- OUT_LO and OUT_HI hold the encoding of some value, packed with zeros after its last byte: what every encode leaves
(R90, R112), and what reset leaves as well, the encoding of 0. -/
def Block.OutputIsEncoding (b : Block) : Prop :=
  ∃ u : BitVec 64, b.outLo = packBytes 64 ((encodeVarint 64 u).take 8) ∧
    b.outHi = packBytes 16 ((encodeVarint 64 u).drop 8)

/-- The invariant of the block. -/
def State.Inv (s : State) : Prop := s.block.CountInRange ∧ s.block.OutputIsEncoding

/-- An input the block serves: reset, or a transaction that moves 64 bits at a multiple of 8 (R200). -/
def PortEvent.admitted : PortEvent → Bool
  | .reset => true
  | .access t => t.size == 3 && isAligned t.off

/-- Every presented input is one the block serves. -/
def State.WellDriven (s : State) : Prop := ∀ e ∈ s.pending, e.admitted = true

/-- A run of `k` steps from `s` that is safe, none of its steps refused, and ends in `t`. The block raises no fault
of its own (R220). -/
def State.RunsTo (s : State) (k : Nat) (t : State) : Prop := core.run k s = .next t

end Sys2Proof.Machine
end

