-- ==== Sys2Proof/Certificates/Slice0/Obligations.lean ====
section
/-! DEFINITION. The statements for the provers. The terms of the spec that they use (an encoded length, the bytes of an
encoding, the value of a byte sequence, the zigzag codes) are written here in the arithmetic of the spec's own derived
rules, not by the functions of the machine. -/

namespace Sys2Proof.Claims

open Sys2Proof.Machine

/-! ### The spec's terms -/

/-- G(W) as R6 lists it. -/
def maxGroups : Width → Nat
  | .w16 => 3
  | .w32 => 5
  | .w64 => 10

/-- L(u) = max(1, ceil(bitlen(u)/7)) of R111; `Nat.size` is bitlen, the least n with u < 2^n. -/
def varintLen (u : Nat) : Nat := max 1 ((Nat.size u + 6) / 7)

/-- Byte i of the encoding of u (R112). -/
def varintByte (u i : Nat) : Nat :=
  u / 2 ^ (7 * i) % 128 + if i + 1 < varintLen u then 128 else 0

/-- The sum of the 7-bit groups of the first n bytes (R113). -/
def groupSum (byte : Nat → Nat) (n : Nat) : Nat :=
  ∑ i ∈ Finset.range n, byte i % 128 * 2 ^ (7 * i)

/-- What decoding A bytes at width W gives (R113, R114): the first byte below 128 among the first min(A, G(W)) ends
the sequence, and the value is the sum of its groups modulo 2^W (R115); with no such byte the result is (0, 0). -/
def DecodesTo (w : Width) (A : Nat) (byte : Nat → Nat) (consumed value : Nat) : Prop :=
  (∀ k < min A (maxGroups w), byte k < 128 → (∀ j < k, 128 ≤ byte j) →
    consumed = k + 1 ∧ value = groupSum byte (k + 1) % 2 ^ w.bits) ∧
  ((∀ k < min A (maxGroups w), 128 ≤ byte k) → consumed = 0 ∧ value = 0)

/-- The zigzag code of an integer (R141). -/
def zigzagCode (v : Int) : Int := if 0 ≤ v then 2 * v else -2 * v - 1

/-- The integer of a zigzag code (R143). -/
def zigzagValue (u : Int) : Int := if u % 2 = 0 then u / 2 else -(u + 1) / 2

/-- uint_W(OPERAND[W-1:0]) (R9, R87). -/
def uintOperand (w : Width) (b : Block) : Nat := b.operand.toNat % 2 ^ w.bits

/-- sint_W(OPERAND[W-1:0]) (R9, R87): uint_W less 2^W when bit W-1 is set. -/
def sintOperand (w : Width) (b : Block) : Int :=
  (uintOperand w b : Int) - if b.operand.getLsbD (w.bits - 1) then 2 ^ w.bits else 0

/-- Input byte i as it sits in IN_LO and IN_HI (R58, R88). -/
def inputByte (b : Block) (i : Nat) : Nat :=
  if i < 8 then b.inLo.toNat / 256 ^ i % 256 else b.inHi.toNat / 256 ^ (i - 8) % 256

/-- A = min(uint_64(IN_AVAIL), 10) (R88). -/
def availableBytes (b : Block) : Nat := min b.inAvail.toNat 10

/-- Output byte i as it sits in OUT_LO and OUT_HI (R58). -/
def outputByte (b : Block) (i : Nat) : Nat :=
  if i < 8 then b.outLo.toNat / 256 ^ i % 256 else b.outHi.toNat / 256 ^ (i - 8) % 256

/-- A legal command word (R84), by its fields. -/
abbrev LegalWord (c : Word) : Prop :=
  1 ≤ c.toNat / 16 % 16 ∧ c.toNat / 16 % 16 ≤ 6 ∧ c.toNat % 4 ≠ 0 ∧ c.toNat / 4 % 4 = 0 ∧ c.toNat / 256 = 0

/-- The transaction writes to CMD a legal word whose OP is among `ops` (R83). -/
def CommandWriteOf (ops : List Nat) (a : Transaction) : Prop :=
  a.we = true ∧ a.off.toNat = 0x00 ∧ LegalWord a.wdata ∧ a.wdata.toNat / 16 ∈ ops

/-- The opcode map (R85). -/
def opcodeMap : List (Word × Instr) :=
  [(0x11, .vencU16), (0x12, .vencU32), (0x13, .vencU64), (0x21, .vdecU16), (0x22, .vdecU32), (0x23, .vdecU64),
   (0x31, .vencS16), (0x32, .vencS32), (0x33, .vencS64), (0x41, .vdecS16), (0x42, .vdecS32), (0x43, .vdecS64),
   (0x51, .zzenc16), (0x52, .zzenc32), (0x53, .zzenc64), (0x61, .zzdec16), (0x62, .zzdec32), (0x63, .zzdec64)]

/-- The instruction completes in every state, and as an encode of `value`: COUNT is the encoded length, the ten output
bytes are the encoding followed by zeros (R90), and every other register, and the port, is unchanged (R29). -/
def Encodes (i : Instr) (value : Block → Nat) : Prop :=
  ∀ s : State, ∃ t : State, exec i s = .next t ∧
    t.block.count.toNat = varintLen (value s.block) ∧
    (∀ k < 10, outputByte t.block k =
      if k < varintLen (value s.block) then varintByte (value s.block) k else 0) ∧
    t = { s with block := { s.block with
      outLo := t.block.outLo, outHi := t.block.outHi, count := t.block.count } }

/-- The instruction completes in every state, and as a decode at width `w` whose RESULT shows the decoded value as
`shows` says; every register but COUNT and RESULT, and the port, is unchanged (R29). -/
def Decodes (i : Instr) (w : Width) (shows : Nat → Word → Prop) : Prop :=
  ∀ s : State, ∃ t : State, ∃ u : Nat, exec i s = .next t ∧
    DecodesTo w (availableBytes s.block) (inputByte s.block) t.block.count.toNat u ∧
    shows u t.block.result ∧
    t = { s with block := { s.block with count := t.block.count, result := t.block.result } }

/-- The instruction completes in every state; RESULT is as `shows` says, and every other register, and the port, is
unchanged (R29). -/
def Maps (i : Instr) (shows : Block → Word → Prop) : Prop :=
  ∀ s : State, ∃ t : State, exec i s = .next t ∧ shows s.block t.block.result ∧
    t = { s with block := { s.block with result := t.block.result } }

/-- perform(c) as R203 writes it: one body for the three widths, by the fields of the word. -/
def performR203 (c : Word) (b : Block) : Block :=
  if LegalWord c then
    let W := if c.toNat % 4 = 1 then 16 else if c.toNat % 4 = 2 then 32 else 64
    let p := b.operandOf W
    let r := decodeVarint W b.inputSeq
    if c.toNat / 16 % 16 = 1 then b.pack (encodeVarint W p)
    else if c.toNat / 16 % 16 = 2 then b.setDecoded r.1 (zext64 r.2)
    else if c.toNat / 16 % 16 = 3 then b.pack (encodeVarint W (zigzagEncode W p))
    else if c.toNat / 16 % 16 = 4 then b.setDecoded r.1 (sext64 (zigzagDecode W r.2))
    else if c.toNat / 16 % 16 = 5 then b.setResult (zext64 (zigzagEncode W p))
    else b.setResult (sext64 (zigzagDecode W p))
  else b.setIll

/-- The unsigned encode command of a width, and its five companions. -/
def vencU : Width → Instr
  | .w16 => .vencU16
  | .w32 => .vencU32
  | .w64 => .vencU64

def vdecU : Width → Instr
  | .w16 => .vdecU16
  | .w32 => .vdecU32
  | .w64 => .vdecU64

def vencS : Width → Instr
  | .w16 => .vencS16
  | .w32 => .vencS32
  | .w64 => .vencS64

def vdecS : Width → Instr
  | .w16 => .vdecS16
  | .w32 => .vdecS32
  | .w64 => .vdecS64

def zzenc : Width → Instr
  | .w16 => .zzenc16
  | .w32 => .zzenc32
  | .w64 => .zzenc64

def zzdec : Width → Instr
  | .w16 => .zzdec16
  | .w32 => .zzdec32
  | .w64 => .zzdec64

/-- The host copies the outputs to the inputs: OUT_LO to IN_LO, OUT_HI to IN_HI, and `avail` to IN_AVAIL (95, the
properties of §8). -/
def copyOutputs (s : State) (avail : Word) : State :=
  { s with block := { s.block with
    inLo := s.block.outLo, inHi := zext64 s.block.outHi, inAvail := avail } }

/-- The byte sequence with the continuation flag set in every byte and `n` zero groups appended, the last of them the
terminating byte 0x00: for `n` at least 1 a non-minimal encoding of the same value (R116). -/
def padZeroGroups (n : Nat) (s : List Byte) : List Byte :=
  s.map (fun b => b ||| 0x80) ++ (List.replicate (n - 1) 0x80 ++ [0x00])

end Sys2Proof.Claims

section

open Sys2Proof Sys2Proof.Machine Sys2Proof.Claims

/-! ### Encoding -/

/-- A few words, written out from the encodings of R81, R85 and R92, decode to their instructions. -/
def Obligations.SampleWordsDecode : Prop :=
  decode (.cmd 0b00010001) = .ok .vencU16 ∧ decode (.cmd 0b00100010) = .ok .vdecU32 ∧
  decode (.cmd 0b00110011) = .ok .vencS64 ∧ decode (.cmd 0b01000001) = .ok .vdecS16 ∧
  decode (.cmd 0b01010010) = .ok .zzenc32 ∧ decode (.cmd 0b01100011) = .ok .zzdec64 ∧
  decode (.bus 0x80_0000000000000012) = .ok (.wr 0x00 0x12) ∧
  decode (.bus 0x40_0000000000000000) = .ok (.rd 0x40) ∧
  decode (.cmd 0x14) = .error .illegalCommand

/-- R85: a CMD word decodes to an instruction exactly when the opcode map pairs them; every other word is illegal. -/
def Obligations.CommandWordsDecodeByOpcodeMap : Prop :=
  ∀ c : Word,
    (∀ i : Instr, decode (.cmd c) = .ok i ↔ (c, i) ∈ opcodeMap) ∧
    ((∀ i : Instr, (c, i) ∉ opcodeMap) → decode (.cmd c) = .error .illegalCommand)

/-- R84: the legal words are those whose fields the rule names, exactly the 18 of the opcode map; the decoder takes
them and no other word. -/
def Obligations.ExactlyEighteenLegalWords : Prop :=
  ((opcodeMap.map Prod.fst).Nodup ∧ opcodeMap.length = 18) ∧
  ∀ c : Word, (LegalWord c ↔ c ∈ opcodeMap.map Prod.fst) ∧
    (LegalWord c → ∃ i : Instr, decode (.cmd c) = .ok i) ∧
    (¬ LegalWord c → decode (.cmd c) = .error .illegalCommand)

/-- Decoding an encoded well-formed instruction gives it back, every operand at every value the encoding admits. -/
def Obligations.DecodeOfEncodeIsIdentity : Prop :=
  ∀ i : Instr, i.WellFormed → decode (encode i) = .ok i

/-- R92: bit 71 is dir, bits 70:64 are off, bits 63:0 are data, which a read ignores and writes as 0; an offset with
off[2:0] other than 000 is no transaction. -/
def Obligations.BusWordsDecodeByFields : Prop :=
  ∀ (dir : Bool) (off : Offset) (data : Word) (t : BitVec 72),
    t.toNat = (if dir then 2 ^ 71 else 0) + off.toNat * 2 ^ 64 + data.toNat →
    (decode (.bus t) =
      if off.toNat % 8 = 0 then .ok (if dir then .wr off data else .rd off)
      else .error (.notAdmitted .misaligned)) ∧
    (dir = true → encode (.wr off data) = .bus t) ∧
    (dir = false → data = 0 → encode (.rd off) = .bus t)

/-- R95: each pseudo-instruction is one transaction, the write of its expansion. -/
def Obligations.PseudoInstructionsExpandToOneWrite : Prop :=
  [assemble "venc.u16", assemble "venc.u32", assemble "venc.u64"] = [0x11, 0x12, 0x13].map (some ∘ busWrite 0x00) ∧
  [assemble "vdec.u16", assemble "vdec.u32", assemble "vdec.u64"] = [0x21, 0x22, 0x23].map (some ∘ busWrite 0x00) ∧
  [assemble "venc.s16", assemble "venc.s32", assemble "venc.s64"] = [0x31, 0x32, 0x33].map (some ∘ busWrite 0x00) ∧
  [assemble "vdec.s16", assemble "vdec.s32", assemble "vdec.s64"] = [0x41, 0x42, 0x43].map (some ∘ busWrite 0x00) ∧
  [assemble "zzenc16", assemble "zzenc32", assemble "zzenc64"] = [0x51, 0x52, 0x53].map (some ∘ busWrite 0x00) ∧
  [assemble "zzdec16", assemble "zzdec32", assemble "zzdec64"] = [0x61, 0x62, 0x63].map (some ∘ busWrite 0x00) ∧
  assemble "cmd 0x14" = some (busWrite 0x00 0x14) ∧
  assemble "clrill" = some (busWrite 0x08 0x1)

/-! ### The step -/

/-- A step takes the first presented transaction, and is exec of the instruction it decodes to, with that input taken
and nothing answered yet. -/
def Obligations.StepRunsDecodedTransaction : Prop :=
  ∀ (s : State) (t : Transaction) (rest : List PortEvent) (i : Instr),
    s.pending = .access t :: rest → decodeTransaction t = .ok i →
    step s = exec i { s with pending := rest, rdata := none }

/-- The host issues a well-formed instruction by presenting its encoding: a BUS word runs as RD or WR, and a command
word runs as its command once CMD holds it (R21, R203). -/
def Obligations.IssuedInstructionRuns : Prop :=
  ∀ (i : Instr) (s : State), i.WellFormed →
    step (s.presentFirst (.access (encode i).transaction)) =
      match encode i with
      | .bus _ => exec i { s with rdata := none }
      | .cmd c => exec i { s with rdata := none, block := { s.block with cmd := c } }

/-- A word of opcode_table.json, presented by withFetchWord, runs in the next step as the instruction it decodes to;
a command word is by then in CMD. How a table word is presented is the model's choice (notes/assumptions/10.md). -/
def Obligations.TableWordRunsInNextStep : Prop :=
  ∀ (s : State) (nbits w : Nat) (i : Instr), decodeTableWord nbits w = some i →
    step (s.withFetchWord nbits w) =
      exec i { s with rdata := none, block :=
        if nbits ≤ 64 then { s.block with cmd := BitVec.ofNat 64 w } else s.block }

/-- R203: a write of a word to CMD stores it and performs it by the pseudocode of the rule, in the one transaction. -/
def Obligations.CommandWriteFollowsPerform : Prop :=
  ∀ (c : Word) (s : State),
    exec (.wr 0x00 c) s = .next { s with block := performR203 c { s.block with cmd := c } }

/-- R222: a word that is not legal sets ILL and changes no other register; CMD holds the word. -/
def Obligations.IllegalWordSetsIllOnly : Prop :=
  ∀ (c : Word) (s : State), ¬ LegalWord c →
    exec (.wr 0x00 c) s = .next { s with block := { s.block with cmd := c, ill := true } }

/-- R52: a transaction of another width than 64 bits, or at an offset that is not a multiple of 8, has no step, and
the two host instructions refuse such an offset. -/
def Obligations.NotAdmittedIsRefused : Prop :=
  (∀ (s : State) (t : Transaction) (rest : List PortEvent), s.pending = .access t :: rest →
    ((¬ (t.size.toNat = 3 ∧ t.off.toNat % 8 = 0)) ↔ ∃ why, step s = .refused (.notAdmitted why))) ∧
  (∀ (s : State) (off : Offset) (v : Word), off.toNat % 8 ≠ 0 →
    exec (.rd off) s = .refused (.notAdmitted .misaligned) ∧
    exec (.wr off v) s = .refused (.notAdmitted .misaligned))

/-- A step happens exactly when the host has presented an input that the block admits, and it serves that input alone
(R200). That a reset is served in the same way is the model's choice (notes/assumptions/6.md). -/
def Obligations.StepsExactlyOnAdmittedInput : Prop :=
  ∀ s : State,
    ((∃ t : State, step s = .next t) ↔ ∃ e rest, s.pending = e :: rest ∧ e.admitted = true) ∧
    (∀ t : State, step s = .next t → t.pending = s.pending.tail)

/-- The block never stalls on admitted inputs (R200): a run of as many steps as inputs presented serves them all. That
the inputs are a list in the state (notes/assumptions/1.md), and that those presented behind a reset are still served
(notes/assumptions/6.md), is the model's choice. -/
def Obligations.WellDrivenRunServesEveryInput : Prop :=
  ∀ s : State, s.WellDriven → ∃ t : State, s.RunsTo s.pending.length t ∧ t.pending = []

/-! ### The host's transactions -/

/-- R201: the value a read of each offset answers with; the block is unchanged. A misaligned or narrow read is
refused. -/
def Obligations.ReadReturnsRegister : Prop :=
  ∀ (s : State) (off : Offset),
    (off.toNat = 0x00 → exec (.rd off) s = .next { s with rdata := some s.block.cmd }) ∧
    (off.toNat = 0x08 → exec (.rd off) s = .next { s with rdata := some (if s.block.ill then 1 else 0) }) ∧
    (off.toNat = 0x10 → exec (.rd off) s = .next { s with rdata := some s.block.operand }) ∧
    (off.toNat = 0x18 → exec (.rd off) s = .next { s with rdata := some s.block.inLo }) ∧
    (off.toNat = 0x20 → exec (.rd off) s = .next { s with rdata := some s.block.inHi }) ∧
    (off.toNat = 0x28 → exec (.rd off) s = .next { s with rdata := some s.block.inAvail }) ∧
    (off.toNat = 0x30 → exec (.rd off) s = .next { s with rdata := some s.block.outLo }) ∧
    (off.toNat = 0x38 → exec (.rd off) s = .next { s with rdata := some (BitVec.ofNat 64 s.block.outHi.toNat) }) ∧
    (off.toNat = 0x40 → exec (.rd off) s = .next { s with rdata := some (BitVec.ofNat 64 s.block.count.toNat) }) ∧
    (off.toNat = 0x48 → exec (.rd off) s = .next { s with rdata := some s.block.result }) ∧
    (0x50 ≤ off.toNat → off.toNat % 8 = 0 → exec (.rd off) s = .next { s with rdata := some 0 }) ∧
    (off.toNat % 8 ≠ 0 → exec (.rd off) s = .refused (.notAdmitted .misaligned)) ∧
    (∀ (t : Transaction) (rest : List PortEvent), s.pending = .access t :: rest → t.we = false → t.size.toNat ≠ 3 →
      ∃ why, step s = .refused (.notAdmitted why))

/-- R202: the effect of a write at each offset. A misaligned or narrow write is refused. -/
def Obligations.WriteEffectByOffset : Prop :=
  ∀ (s : State) (off : Offset) (v : Word),
    (off.toNat = 0x00 → exec (.wr off v) s = perform v { s with block := { s.block with cmd := v } }) ∧
    (off.toNat = 0x08 → exec (.wr off v) s =
      .next { s with block := { s.block with ill := s.block.ill && v.toNat % 2 == 0 } }) ∧
    (off.toNat = 0x10 → exec (.wr off v) s = .next { s with block := { s.block with operand := v } }) ∧
    (off.toNat = 0x18 → exec (.wr off v) s = .next { s with block := { s.block with inLo := v } }) ∧
    (off.toNat = 0x20 → exec (.wr off v) s = .next { s with block := { s.block with inHi := v } }) ∧
    (off.toNat = 0x28 → exec (.wr off v) s = .next { s with block := { s.block with inAvail := v } }) ∧
    (0x30 ≤ off.toNat → off.toNat % 8 = 0 → exec (.wr off v) s = .next s) ∧
    (off.toNat % 8 ≠ 0 → exec (.wr off v) s = .refused (.notAdmitted .misaligned)) ∧
    (∀ (t : Transaction) (rest : List PortEvent), s.pending = .access t :: rest → t.we = true → t.size.toNat ≠ 3 →
      ∃ why, step s = .refused (.notAdmitted why))

/-- A read changes nothing but the answer, so it may be repeated, with the same answer, or dropped: any instruction
has the same effect on the block without it (R54). -/
def Obligations.ReadsHaveNoSideEffect : Prop :=
  ∀ (s t : State) (off : Offset), exec (.rd off) s = .next t →
    t = { s with rdata := t.rdata } ∧ exec (.rd off) t = .next t ∧
    ∀ (i : Instr) (u : State), exec i t = .next u → ∃ v : State, exec i s = .next v ∧ v.block = u.block

/-- Writing the same word to CMD again, with the inputs unchanged, leaves the same state: the closing
sentence of R55, which the spec marks as derived. -/
def Obligations.CommandWriteIsIdempotent : Prop :=
  ∀ (c : Word) (s : State), ∃ t : State, exec (.wr 0x00 c) s = .next t ∧ exec (.wr 0x00 c) t = .next t

/-- R250: after reset every register is 0 and no command has been performed; a reset gives that block whatever the
state before it. -/
def Obligations.ResetZeroesEveryRegister : Prop :=
  ∃ zeros : Block, zeros =
    { cmd := 0, ill := false, operand := 0, inLo := 0, inHi := 0, inAvail := 0,
      outLo := 0, outHi := 0, count := 0, result := 0 } ∧
    State.reset.block = zeros ∧
    ∀ (s : State) (rest : List PortEvent), s.pending = .reset :: rest →
      ∃ t : State, step s = .next t ∧ t.block = zeros

/-- R50 for the platform's side: an access to an address from VZC_BASE to VZC_BASE + 0x7F is presented to the block at
the offset of the address, which is aligned exactly when the address is; an access outside is no VZC transaction. -/
def Obligations.PlatformAccessReachesWindow : Prop :=
  Config.vzcBase % 128 = 0 ∧
  (∀ (s : State) (a : HostAccess) (k : Nat), k < 128 → a.addr = Config.vzcBase + k →
    ∃ off : Offset, off.toNat = k ∧ (isAligned off = true ↔ a.addr % 8 = 0) ∧
      s.hostAccess a = .next { s with pending := s.pending ++ [.access ⟨a.we, off, a.size, a.wdata⟩] }) ∧
  (∀ (s : State) (a : HostAccess), a.addr < Config.vzcBase ∨ Config.vzcBase + 128 ≤ a.addr →
    s.hostAccess a = .refused (.notAdmitted .outsideWindow))

/-- Byte lanes are little-endian (R59), so output byte i stands at window address 0x30 + i and input byte i at
0x18 + i (R58), for i from 0 to 9. -/
def Obligations.ByteLanesAreLittleEndian : Prop :=
  ∀ (b : Block),
    (∀ i < 10, (b.windowByte (0x30 + i)).toNat = outputByte b i ∧ (b.windowByte (0x18 + i)).toNat = inputByte b i) ∧
    (∀ k < 8, (b.windowByte (0x10 + k)).toNat = b.operand.toNat / 256 ^ k % 256 ∧
      (b.windowByte (0x48 + k)).toNat = b.result.toNat / 256 ^ k % 256)

/-! ### The codec functions -/

/-- R110: the encoding of a value is its low 7 bits alone when nothing is left above them, and otherwise its low 7
bits with bit 7 set, followed by the encoding of the rest. -/
def Obligations.EncodeVarintIsTheGroupLoop : Prop :=
  ∀ (w : Width) (u : Nat), u < 2 ^ w.bits →
    encodeVarint w.bits (BitVec.ofNat w.bits u) =
      if u / 128 = 0 then [BitVec.ofNat 8 (u % 128)]
      else BitVec.ofNat 8 (u % 128 + 128) :: encodeVarint w.bits (BitVec.ofNat w.bits (u / 128))

/-- Every encoding has the length of R111, which is from 1 to G(W), and the bytes of R112. The spec marks both rules as
derived, from R110. -/
def Obligations.EncodeVarintLengthAndBytes : Prop :=
  ∀ (w : Width) (u : BitVec w.bits),
    (encodeVarint w.bits u).map BitVec.toNat = (List.range (varintLen u.toNat)).map (varintByte u.toNat) ∧
    1 ≤ varintLen u.toNat ∧ varintLen u.toNat ≤ maxGroups w

/-- Minimality of the encoder (R112, which the spec marks as derived): the last byte has bit 7 clear and is not zero, unless the value is 0 and it is
the one byte. -/
def Obligations.EncoderIsMinimal : Prop :=
  ∀ (w : Width) (u : BitVec w.bits), ∃ init last, encodeVarint w.bits u = init ++ [last] ∧
    (∀ b ∈ init, b.getLsbD 7 = true) ∧ last.getLsbD 7 = false ∧ (last = 0 → u = 0 ∧ init = [])

/-- R113: decode_varint_W on a sequence of any length. That the sum is taken modulo 2^W, R113 itself marks as the spec's
reading (R115, D12; notes/assumptions/9.md). -/
def Obligations.DecodeVarintReadsToTerminator : Prop :=
  ∀ (w : Width) (seq : List Byte),
    DecodesTo w seq.length (fun i => (seq.getD i 0).toNat)
      (decodeVarint w.bits seq).1 (decodeVarint w.bits seq).2.toNat

/-- A decode fails, with (0, 0), exactly when the input is shorter than G(W) and has only continuation bytes, or its
first G(W) bytes are continuation bytes (R114, which the spec marks as derived); otherwise 1 to min(A, G(W)) bytes
are consumed (R119). -/
def Obligations.DecodeFailsExactlyOnUnterminatedInput : Prop :=
  ∀ (w : Width) (seq : List Byte),
    ((decodeVarint w.bits seq).1 = 0 ↔
      (seq.length < maxGroups w ∧ ∀ b ∈ seq, b.getLsbD 7 = true) ∨
      (maxGroups w ≤ seq.length ∧ ∀ b ∈ seq.take (maxGroups w), b.getLsbD 7 = true)) ∧
    ((decodeVarint w.bits seq).1 = 0 → (decodeVarint w.bits seq).2 = 0) ∧
    (decodeVarint w.bits seq).1 ≤ min seq.length (maxGroups w)

/-- R115, which the spec marks as its own choice (D12): of a terminating byte in group G(W) - 1 the data bits kept are
b[1:0] as value bits 15:14 at W = 16, b[3:0] as value bits 31:28 at W = 32 and b[0] as value bit 63 at W = 64; the
decode succeeds and consumes G(W) bytes. -/
def Obligations.ExcessBitsOfLastGroupAreDiscarded : Prop :=
  ∀ (w : Width) (init : List Byte) (last : Byte), init.length + 1 = maxGroups w →
    (∀ b ∈ init, b.getLsbD 7 = true) → last.getLsbD 7 = false →
    (decodeVarint w.bits (init ++ [last])).1 = maxGroups w ∧
    (decodeVarint w.bits (init ++ [last])).2.toNat =
      groupSum (fun i => (init.getD i 0).toNat) init.length +
        match w with
        | .w16 => last.toNat % 4 * 2 ^ 14
        | .w32 => last.toNat % 16 * 2 ^ 28
        | .w64 => last.toNat % 2 * 2 ^ 63

/-- R116, which the spec marks as its own choice (D13; notes/assumptions/9.md): a terminated sequence of at most G(W)
bytes whose last byte is 0x00 after at least one continuation byte decodes successfully, to the sum of its groups; so an
encoding with any number of zero groups appended, within G(W) bytes, decodes to the same value. -/
def Obligations.NonMinimalEncodingIsAccepted : Prop :=
  (∀ (w : Width) (init : List Byte), init ≠ [] → (∀ b ∈ init, b.getLsbD 7 = true) →
    init.length + 1 ≤ maxGroups w →
    (decodeVarint w.bits (init ++ [0x00])).1 = init.length + 1 ∧
    (decodeVarint w.bits (init ++ [0x00])).2.toNat = groupSum (fun i => (init.getD i 0).toNat) init.length) ∧
  (∀ (w : Width) (u : BitVec w.bits) (n : Nat), 1 ≤ n → varintLen u.toNat + n ≤ maxGroups w →
    decodeVarint w.bits (padZeroGroups n (encodeVarint w.bits u)) = (varintLen u.toNat + n, u))

/-- Bytes after the terminating byte, and bytes at index G(W) and above, do not affect a decode (R117, which the
spec marks as derived). -/
def Obligations.UnreadBytesDoNotAffectDecode : Prop :=
  ∀ (w : Width) (seq t : List Byte),
    ((∃ b ∈ seq, b.getLsbD 7 = false) → decodeVarint w.bits (seq ++ t) = decodeVarint w.bits seq) ∧
    (maxGroups w ≤ seq.length → decodeVarint w.bits (seq ++ t) = decodeVarint w.bits seq)

/-- Round trip (R118; that bytes may follow is marked as derived there): decoding an encoding, whatever follows it,
consumes the encoding and gives the value. -/
def Obligations.VarintRoundTrip : Prop :=
  ∀ (w : Width) (u : BitVec w.bits) (t : List Byte),
    decodeVarint w.bits (encodeVarint w.bits u ++ t) = (varintLen u.toNat, u)

/-- Signed round trip (the closing sentence of R171, which the spec marks as derived). -/
def Obligations.SignedVarintRoundTrip : Prop :=
  ∀ (w : Width) (p : BitVec w.bits) (t : List Byte),
    decodeSvarint w.bits (encodeSvarint w.bits p ++ t) = (varintLen (zigzagCode p.toInt).toNat, p)

/-- Truncation safety (R114 case (a), which the spec marks as derived): a decode of fewer bytes than an encoding needs gives (0, 0). -/
def Obligations.TruncatedEncodingGivesSentinel : Prop :=
  ∀ (w : Width) (u : BitVec w.bits) (n : Nat), n < varintLen u.toNat →
    decodeVarint w.bits ((encodeVarint w.bits u).take n) = (0, 0) ∧
    decodeSvarint w.bits ((encodeVarint w.bits u).take n) = (0, 0)

/-- The zigzag code in integer arithmetic (R141), and the value of a code (R143). The spec marks both as derived, from
R140 and R142. -/
def Obligations.ZigzagInIntegerArithmetic : Prop :=
  ∀ (w : Width) (p : BitVec w.bits),
    ((zigzagEncode w.bits p).toNat : Int) = zigzagCode p.toInt ∧
    (zigzagDecode w.bits p).toInt = zigzagValue (p.toNat : Int)

/-- R144: the two zigzag functions are each other's inverse, at every width and every value. The spec marks the second
identity as derived. -/
def Obligations.ZigzagFunctionsAreInverse : Prop :=
  ∀ (w : Width) (p : BitVec w.bits),
    zigzagDecode w.bits (zigzagEncode w.bits p) = p ∧ zigzagEncode w.bits (zigzagDecode w.bits p) = p

/-! ### The commands: what each computes, that it completes, and its frame -/

/-- R120, R121, R122: the unsigned encodes. The sequence is written by its length and bytes, which
EncodeVarintLengthAndBytes says of the loop of R110. -/
def Obligations.UnsignedEncodeResult : Prop :=
  decode (.cmd 0x11) = .ok .vencU16 ∧ Encodes .vencU16 (uintOperand .w16) ∧
  decode (.cmd 0x12) = .ok .vencU32 ∧ Encodes .vencU32 (uintOperand .w32) ∧
  decode (.cmd 0x13) = .ok .vencU64 ∧ Encodes .vencU64 (uintOperand .w64)

/-- R123, R124, R125: the unsigned decodes; RESULT is the value zero-extended. -/
def Obligations.UnsignedDecodeResult : Prop :=
  decode (.cmd 0x21) = .ok .vdecU16 ∧ Decodes .vdecU16 .w16 (fun u r => r.toNat = u) ∧
  decode (.cmd 0x22) = .ok .vdecU32 ∧ Decodes .vdecU32 .w32 (fun u r => r.toNat = u) ∧
  decode (.cmd 0x23) = .ok .vdecU64 ∧ Decodes .vdecU64 .w64 (fun u r => r.toNat = u)

/-- R172, R173, R174: the signed encodes encode the zigzag code of the signed operand, the code written in integer
arithmetic as ZigzagInIntegerArithmetic says of the formula of R140. -/
def Obligations.SignedEncodeResult : Prop :=
  decode (.cmd 0x31) = .ok .vencS16 ∧ Encodes .vencS16 (fun b => (zigzagCode (sintOperand .w16 b)).toNat) ∧
  decode (.cmd 0x32) = .ok .vencS32 ∧ Encodes .vencS32 (fun b => (zigzagCode (sintOperand .w32 b)).toNat) ∧
  decode (.cmd 0x33) = .ok .vencS64 ∧ Encodes .vencS64 (fun b => (zigzagCode (sintOperand .w64 b)).toNat)

/-- R175, R176, R177: the signed decodes; RESULT is the signed value of the decoded code, sign-extended. -/
def Obligations.SignedDecodeResult : Prop :=
  decode (.cmd 0x41) = .ok .vdecS16 ∧ Decodes .vdecS16 .w16 (fun u r => r.toInt = zigzagValue u) ∧
  decode (.cmd 0x42) = .ok .vdecS32 ∧ Decodes .vdecS32 .w32 (fun u r => r.toInt = zigzagValue u) ∧
  decode (.cmd 0x43) = .ok .vdecS64 ∧ Decodes .vdecS64 .w64 (fun u r => r.toInt = zigzagValue u)

/-- R146, R147, R148: the zigzag encodes; RESULT is the code zero-extended. -/
def Obligations.ZigzagEncodeResult : Prop :=
  decode (.cmd 0x51) = .ok .zzenc16 ∧
    Maps .zzenc16 (fun b r => (r.toNat : Int) = zigzagCode (sintOperand .w16 b)) ∧
  decode (.cmd 0x52) = .ok .zzenc32 ∧
    Maps .zzenc32 (fun b r => (r.toNat : Int) = zigzagCode (sintOperand .w32 b)) ∧
  decode (.cmd 0x53) = .ok .zzenc64 ∧
    Maps .zzenc64 (fun b r => (r.toNat : Int) = zigzagCode (sintOperand .w64 b))

/-- R149, R150, R151: the zigzag decodes; RESULT is the signed value sign-extended. -/
def Obligations.ZigzagDecodeResult : Prop :=
  decode (.cmd 0x61) = .ok .zzdec16 ∧ Maps .zzdec16 (fun b r => r.toInt = zigzagValue (uintOperand .w16 b)) ∧
  decode (.cmd 0x62) = .ok .zzdec32 ∧ Maps .zzdec32 (fun b r => r.toInt = zigzagValue (uintOperand .w32 b)) ∧
  decode (.cmd 0x63) = .ok .zzdec64 ∧ Maps .zzdec64 (fun b r => r.toInt = zigzagValue (uintOperand .w64 b))

/-! ### Across commands -/

/-- R29: which registers a CMD write may change beside CMD itself, by the kind of its word. -/
def Obligations.CommandWritesOnlyItsOutputs : Prop :=
  ∀ (c : Word) (s t : State), exec (.wr 0x00 c) s = .next t →
    t = { s with block := t.block } ∧ t.block.cmd = c ∧
    (LegalWord c → (c.toNat / 16 = 1 ∨ c.toNat / 16 = 3) → t.block =
      { s.block with cmd := c, outLo := t.block.outLo, outHi := t.block.outHi, count := t.block.count }) ∧
    (LegalWord c → (c.toNat / 16 = 2 ∨ c.toNat / 16 = 4) → t.block =
      { s.block with cmd := c, count := t.block.count, result := t.block.result }) ∧
    (LegalWord c → (c.toNat / 16 = 5 ∨ c.toNat / 16 = 6) → t.block =
      { s.block with cmd := c, result := t.block.result }) ∧
    (¬ LegalWord c → t.block = { s.block with cmd := c, ill := true })

/-- OPERAND[63:W] is ignored (R87) and no output register is read (R204, which the spec marks as derived): two
blocks that agree on OPERAND[W-1:0], and perhaps on nothing else, get the same outputs from an encode or a zigzag
command of width W. -/
def Obligations.ValueCommandsReadOnlyLowOperand : Prop :=
  ∀ (w : Width) (s₁ s₂ t₁ t₂ : State), s₁.block.operand.setWidth w.bits = s₂.block.operand.setWidth w.bits →
    (∀ i ∈ [vencU w, vencS w], exec i s₁ = .next t₁ → exec i s₂ = .next t₂ →
      t₁.block.outLo = t₂.block.outLo ∧ t₁.block.outHi = t₂.block.outHi ∧ t₁.block.count = t₂.block.count) ∧
    (∀ i ∈ [zzenc w, zzdec w], exec i s₁ = .next t₁ → exec i s₂ = .next t₂ → t₁.block.result = t₂.block.result)

/-- A decode reads at most min(A, G(W)) bytes of its window (R88, R223) and no other register (R204); the spec marks
R204 and R223 as derived: two blocks with the same A that agree on those bytes get the same COUNT and RESULT. -/
def Obligations.DecodesReadOnlyAvailableBytes : Prop :=
  ∀ (w : Width) (s₁ s₂ t₁ t₂ : State), availableBytes s₁.block = availableBytes s₂.block →
    (∀ i < min (availableBytes s₁.block) (maxGroups w), inputByte s₁.block i = inputByte s₂.block i) →
    ∀ i ∈ [vdecU w, vdecS w], exec i s₁ = .next t₁ → exec i s₂ = .next t₂ →
      t₁.block.count = t₂.block.count ∧ t₁.block.result = t₂.block.result

/-- With IN_AVAIL = 0 every decode writes COUNT = 0 and RESULT = 0, whatever IN_LO and IN_HI hold (95, Example 5; R114
with A = 0, R171), and nothing else. -/
def Obligations.EmptyInputDecodesToSentinel : Prop :=
  ∀ (w : Width) (s : State), s.block.inAvail = 0 → ∀ i ∈ [vdecU w, vdecS w],
    exec i s = .next { s with block := { s.block with count := 0, result := 0 } }

/-- The unsigned round trip on the block (95, the first property of §8; R118): encode, copy the outputs to the
inputs, decode. COUNT stays the encoded length and RESULT is the operand. -/
def Obligations.UnsignedRoundTripThroughRegisters : Prop :=
  ∀ (w : Width) (s : State), ∃ t u : State, exec (vencU w) s = .next t ∧
    exec (vdecU w) (copyOutputs t (zext64 t.block.count)) = .next u ∧
    u.block.count = t.block.count ∧ u.block.result.toNat = uintOperand w s.block

/-- The signed round trip on the block (R171): RESULT is the signed operand, sign-extended. -/
def Obligations.SignedRoundTripThroughRegisters : Prop :=
  ∀ (w : Width) (s : State), ∃ t u : State, exec (vencS w) s = .next t ∧
    exec (vdecS w) (copyOutputs t (zext64 t.block.count)) = .next u ∧
    u.block.count = t.block.count ∧ u.block.result.toInt = sintOperand w s.block

/-- Truncation on the block (95, the fourth property of §8; R114): with fewer bytes available than the encode
produced, both decodes give COUNT = 0 and RESULT = 0. -/
def Obligations.TruncationThroughRegisters : Prop :=
  ∀ (w : Width) (s t : State) (avail : Word), exec (vencU w) s = .next t →
    avail.toNat < t.block.count.toNat → ∀ i ∈ [vdecU w, vdecS w], ∃ u : State,
      exec i (copyOutputs t avail) = .next u ∧ u.block.count = 0 ∧ u.block.result = 0

/-- The zigzag round trip on the block (95, the second property of §8; R144): zigzag encode, move RESULT to OPERAND,
zigzag decode. RESULT is the signed operand, sign-extended. -/
def Obligations.ZigzagRoundTripThroughRegisters : Prop :=
  ∀ (w : Width) (s : State), ∃ t u : State, exec (zzenc w) s = .next t ∧
    exec (zzdec w) { t with block := { t.block with operand := t.block.result } } = .next u ∧
    u.block.result.toInt = sintOperand w s.block

/-! ### Whole-machine rules -/

/-- The invariant holds at reset: COUNT is in range and the output window holds an encoding (R37; the second part is
the model's own reading of R90 and R250). -/
def Obligations.InvariantHoldsAtReset : Prop := State.reset.Inv

/-- Every step keeps the invariant, from every state that meets it (R37, which the spec marks as derived; for
the output window, the model's own reading of R90 and R250). -/
def Obligations.StepKeepsInvariant : Prop :=
  ∀ s t : State, s.Inv → step s = .next t → t.Inv

/-- Immediately after an encode of length L, output bytes L to 9 are 0 and byte L-1 has bit 7 clear; immediately after
a decode, COUNT = 0 implies RESULT = 0 (R37, which the spec marks as derived). -/
def Obligations.OutputsRightAfterCommand : Prop :=
  ∀ (w : Width) (s t : State),
    (∀ i ∈ [vencU w, vencS w], exec i s = .next t →
      1 ≤ t.block.count.toNat ∧ t.block.count.toNat ≤ maxGroups w ∧
      outputByte t.block (t.block.count.toNat - 1) < 128 ∧
      ∀ k < 10, t.block.count.toNat ≤ k → outputByte t.block k = 0) ∧
    (∀ i ∈ [vdecU w, vdecS w], exec i s = .next t →
      t.block.count.toNat ≤ maxGroups w ∧ (t.block.count = 0 → t.block.result = 0))

/-- Only an illegal word written to CMD sets ILL, and only a STATUS write with bit 0 = 1 or reset clears it (R22, R33,
R227): no other input of the block changes it. -/
def Obligations.IllChangesOnlyByIllegalWordW1cOrReset : Prop :=
  ∀ (s t : State) (e : PortEvent) (rest : List PortEvent), s.pending = e :: rest → step s = .next t →
    (s.block.ill = false → (t.block.ill = true ↔
      ∃ a, e = .access a ∧ a.we = true ∧ a.off.toNat = 0x00 ∧ ¬ LegalWord a.wdata)) ∧
    (s.block.ill = true → (t.block.ill = false ↔
      e = .reset ∨ ∃ a, e = .access a ∧ a.we = true ∧ a.off.toNat = 0x08 ∧ a.wdata.toNat % 2 = 1))

/-- R255: OUT_LO and OUT_HI change only at an encode command, COUNT only at an encode or a decode, RESULT only at a
decode or a zigzag command (R29), or at reset; writing an input register changes none of them. -/
def Obligations.OutputsAreLatched : Prop :=
  ∀ (s t : State) (e : PortEvent) (rest : List PortEvent), s.pending = e :: rest → step s = .next t →
    e = .reset ∨
    ((t.block.outLo ≠ s.block.outLo ∨ t.block.outHi ≠ s.block.outHi →
        ∃ a, e = .access a ∧ CommandWriteOf [1, 3] a) ∧
      (t.block.count ≠ s.block.count → ∃ a, e = .access a ∧ CommandWriteOf [1, 2, 3, 4] a) ∧
      (t.block.result ≠ s.block.result → ∃ a, e = .access a ∧ CommandWriteOf [2, 4, 5, 6] a))

/-- No command writes OPERAND, IN_LO, IN_HI or IN_AVAIL (R23, R24): each changes only at a write to its own offset, to
the data written, or at reset. -/
def Obligations.InputsChangeOnlyByTheirOwnWrites : Prop :=
  ∀ (s t : State) (a : Transaction) (rest : List PortEvent), s.pending = .access a :: rest → step s = .next t →
    t.block.operand = (if a.we ∧ a.off.toNat = 0x10 then a.wdata else s.block.operand) ∧
    t.block.inLo = (if a.we ∧ a.off.toNat = 0x18 then a.wdata else s.block.inLo) ∧
    t.block.inHi = (if a.we ∧ a.off.toNat = 0x20 then a.wdata else s.block.inHi) ∧
    t.block.inAvail = (if a.we ∧ a.off.toNat = 0x28 then a.wdata else s.block.inAvail)

/-- The host is answered exactly by reads (R93, R201), and a read leaves the block as it is. That a step which is no
read leaves rdata empty is the model's choice (notes/assumptions/2.md). -/
def Obligations.OnlyReadsAnswer : Prop :=
  ∀ (s t : State) (a : Transaction) (rest : List PortEvent), s.pending = .access a :: rest → step s = .next t →
    (t.rdata.isSome = true ↔ a.we = false) ∧ (a.we = false → t.block = s.block)

end
end

