-- ==== Sys2Proof/Laws/Codec.lean ====
section
/-! SUPPORT. The small lemmas of the codec functions and of packing bytes into registers. -/

namespace Sys2Proof.Machine

/-! ### Encoding -/

@[simp] theorem encodeGroups_zero (u : Nat) : encodeGroups 0 u = [] := rfl

theorem encodeGroups_succ (n u : Nat) :
    encodeGroups (n + 1) u =
      if u / 128 = 0 then [BitVec.ofNat 8 (u % 128)]
      else BitVec.ofNat 8 (u % 128 + 128) :: encodeGroups n (u / 128) := rfl

/-- An encoding has at most as many bytes as groups are allowed. -/
theorem encodeGroups_length_le (n u : Nat) : (encodeGroups n u).length ≤ n := by
  induction n generalizing u with
  | zero => simp
  | succ n ih =>
    rw [encodeGroups_succ]
    split
    · simp
    · have := ih (u / 128); simp; omega

theorem encodeGroups_length_pos (n u : Nat) : 1 ≤ (encodeGroups (n + 1) u).length := by
  rw [encodeGroups_succ]; split <;> simp

/-- Any two bounds that are enough for a value give it the same encoding. -/
theorem encodeGroups_bound_irrelevant {n m u : Nat} (hn : u < 128 ^ (n + 1)) (hm : u < 128 ^ (m + 1)) :
    encodeGroups (n + 1) u = encodeGroups (m + 1) u := by
  induction n generalizing m u with
  | zero =>
    have : u / 128 = 0 := by omega
    simp [encodeGroups_succ, this]
  | succ n ih =>
    rw [encodeGroups_succ (n + 1), encodeGroups_succ m]
    split
    · rfl
    · cases m with
      | zero => omega
      | succ m =>
        rw [ih (m := m)]
        · rw [Nat.pow_succ] at hn; exact Nat.div_lt_of_lt_mul (by omega)
        · rw [Nat.pow_succ] at hm; exact Nat.div_lt_of_lt_mul (by omega)

theorem groups_bits (w : Width) : groups w.bits = match w with | .w16 => 3 | .w32 => 5 | .w64 => 10 := by
  cases w <;> rfl

/-- G(W) groups hold W bits. -/
theorem two_pow_bits_le (w : Width) : 2 ^ w.bits ≤ 128 ^ groups w.bits := by
  cases w <;> decide

theorem encodeVarint_length_le (W : Nat) (u : BitVec W) : (encodeVarint W u).length ≤ groups W :=
  encodeGroups_length_le _ _

/-! ### Decoding -/

theorem decodeGroups_nil (n i acc : Nat) : decodeGroups n i acc [] = none := by
  cases n <;> rfl

theorem decodeGroups_cons (n i acc : Nat) (b : Byte) (seq : List Byte) :
    decodeGroups (n + 1) i acc (b :: seq) =
      if b.getLsbD 7 then decodeGroups n (i + 1) (acc + (field b 6 0).toNat * 2 ^ (7 * i)) seq
      else some (i + 1, acc + (field b 6 0).toNat * 2 ^ (7 * i)) := rfl

/-- A decode that ends has read past its start and neither past its groups nor past its input. -/
theorem decodeGroups_consumed {n i acc c v : Nat} {seq : List Byte}
    (h : decodeGroups n i acc seq = some (c, v)) : i < c ∧ c ≤ i + n ∧ c ≤ i + seq.length := by
  induction n generalizing i acc seq with
  | zero => cases h
  | succ n ih =>
    cases seq with
    | nil => cases h
    | cons b seq =>
      rw [decodeGroups_cons] at h
      split at h
      · have := ih h; simp; omega
      · cases h; simp

theorem decodeVarint_consumed_le (W : Nat) (seq : List Byte) : (decodeVarint W seq).1 ≤ groups W := by
  unfold decodeVarint
  split
  · rename_i h; have := decodeGroups_consumed h; simp; omega
  · simp

/-! ### Packing -/

theorem toNat_extract_byte (b : Byte) : (field b 6 0).toNat = b.toNat % 128 := by
  simp [field]

/-- A sequence that fits is packed as the number whose digits to base 256 are its bytes, byte 0 least significant
(R58, R90). -/
theorem packBytes_toNat {n : Nat} {s : List Byte} (h : 8 * s.length ≤ n) :
    (packBytes n s).toNat = Nat.ofDigits 256 (s.map BitVec.toNat) := by
  have lt : ∀ s : List Byte, Nat.ofDigits 256 (s.map BitVec.toNat) < 2 ^ (8 * s.length) := by
    intro s
    have := Nat.ofDigits_lt_base_pow_length (b := 256) (l := s.map BitVec.toNat) (by decide)
      (by intro x hx; obtain ⟨b, -, rfl⟩ := List.mem_map.1 hx; exact b.isLt)
    rw [Nat.pow_mul]; simpa using this
  induction s with
  | nil => simp [packBytes]
  | cons b s ih =>
    simp only [List.length_cons] at h
    have e := ih (by omega)
    have hb := b.isLt
    have hs := lt s
    have hc := lt (b :: s)
    have hn : 2 ^ (8 * (s.length + 1)) ≤ 2 ^ n := Nat.pow_le_pow_right (by decide) (by omega)
    simp only [List.map_cons, Nat.ofDigits_cons, List.length_cons] at hc ⊢
    simp only [packBytes, BitVec.toNat_add, BitVec.toNat_setWidth, BitVec.toNat_shiftLeft, e, Nat.shiftLeft_eq]
    generalize Nat.ofDigits 256 (s.map BitVec.toNat) = d at *
    rw [Nat.mod_eq_of_lt (by omega : b.toNat < 2 ^ n), Nat.mod_eq_of_lt (by omega : d * 2 ^ 8 < 2 ^ n),
      Nat.mod_eq_of_lt (by omega)]
    omega

/-- A digit to base 256 of the number a list of bytes shows. -/
theorem ofDigits_digit {l : List Nat} (hl : ∀ x ∈ l, x < 256) (k : Nat) :
    Nat.ofDigits 256 l / 256 ^ k % 256 = l.getD k 0 := by
  induction l generalizing k with
  | nil => simp
  | cons a l ih =>
    have ha : a < 256 := hl a (by simp)
    have hl' : ∀ x ∈ l, x < 256 := fun x hx => hl x (by simp [hx])
    cases k with
    | zero => simp [Nat.ofDigits_cons]; omega
    | succ k =>
      have e : Nat.ofDigits 256 (a :: l) / 256 = Nat.ofDigits 256 l := by
        simp only [Nat.ofDigits_cons]; omega
      rw [pow_succ', ← Nat.div_div_eq_div_mul, e, ih hl' k]
      simp

/-- A byte of a register. -/
theorem wordByte_toNat (w : Word) (i : Nat) : (wordByte w i).toNat = w.toNat / 256 ^ i % 256 := by
  unfold wordByte
  rw [BitVec.extractLsb'_toNat, Nat.shiftRight_eq_div_pow, Nat.pow_mul]

end Sys2Proof.Machine
end

