-- ==== Sys2Proof/Laws/Decode.lean ====
section
/-! SUPPORT. What the decoder can answer: decoding a command inverts the words of the opcode map. -/

namespace Sys2Proof

/-- OP of an operation (R83). -/
def Op.code : Op → BitVec 4
  | .vencU => 1
  | .vdecU => 2
  | .vencS => 3
  | .vdecS => 4
  | .zzenc => 5
  | .zzdec => 6

/-- WIDTH of a width (R82). -/
def Width.code : Width → BitVec 2
  | .w16 => 1
  | .w32 => 2
  | .w64 => 3

/-- The command word of an operation and a width, `oooo00ww` (R81). -/
def Command.word (k : Command) : Word :=
  BitVec.ofNat 64 (16 * k.op.code.toNat + k.width.code.toNat)

@[simp] theorem decodeCommand_word (k : Command) : decodeCommand k.word = some k := by
  obtain ⟨op, width⟩ := k; cases op <;> cases width <;> decide

@[simp] theorem encode_toInstr (k : Command) : encode k.toInstr = .cmd k.word := by
  obtain ⟨op, width⟩ := k; cases op <;> cases width <;> rfl

theorem Command.toInstr_injective {k k' : Command} (h : k.toInstr = k'.toInstr) : k = k' := by
  have hw := congrArg encode h
  simp only [encode_toInstr, CodeWord.cmd.injEq] at hw
  simpa using congrArg decodeCommand hw

theorem Op.ofBits_eq_some {o : BitVec 4} {op : Op} (h : Op.ofBits o = some op) : o = op.code := by
  revert h; revert o; cases op <;> decide

theorem Width.ofBits_eq_some {v : BitVec 2} {w : Width} (h : Width.ofBits v = some w) : v = w.code := by
  revert h; revert v; cases w <;> decide

/-- A word is the one its fields show (R81). -/
theorem word_eq_of_fields {c d : Word} (h8 : field c 63 8 = field d 63 8) (h4 : field c 7 4 = field d 7 4)
    (h2 : field c 3 2 = field d 3 2) (h0 : field c 1 0 = field d 1 0) : c = d := by
  apply BitVec.eq_of_toNat_eq
  have e8 := congrArg BitVec.toNat h8
  have e4 := congrArg BitVec.toNat h4
  have e2 := congrArg BitVec.toNat h2
  have e0 := congrArg BitVec.toNat h0
  simp [field, Nat.shiftRight_eq_div_pow] at e8 e4 e2 e0
  omega

/-- Decoding a command word succeeds on the words of the opcode map and on no other (R84, R85). -/
theorem decodeCommand_eq_some {c : Word} {k : Command} : decodeCommand c = some k ↔ c = k.word := by
  constructor
  · intro h
    unfold decodeCommand at h
    split at h
    · rename_i hr
      split at h
      · rename_i op width ho hw
        cases h
        have h4 := Op.ofBits_eq_some ho
        have h0 := Width.ofBits_eq_some hw
        apply word_eq_of_fields
        · rw [hr.1]; clear ho hw h4 h0; cases op <;> cases width <;> decide
        · rw [h4]; clear ho hw h4 h0; cases op <;> cases width <;> decide
        · rw [hr.2]; clear ho hw h4 h0; cases op <;> cases width <;> decide
        · rw [h0]; clear ho hw h4 h0; cases op <;> cases width <;> decide
      · cases h
    · cases h
  · rintro rfl; exact decodeCommand_word k

theorem isAligned_iff {off : Offset} : isAligned off = true ↔ off.toNat % 8 = 0 := by
  revert off; decide

theorem busWord_toNat (dir : BitVec 1) (off : Offset) (data : Word) :
    (busWord dir off data).toNat = dir.toNat * 2 ^ 71 + off.toNat * 2 ^ 64 + data.toNat := by
  unfold busWord
  rw [BitVec.toNat_append, BitVec.toNat_append, ← Nat.shiftLeft_add_eq_or_of_lt data.isLt,
    ← Nat.shiftLeft_add_eq_or_of_lt off.isLt]
  simp only [Nat.shiftLeft_eq]
  omega

/-- The fields of a BUS word, from its value as a number (R92). -/
theorem transactionOfBus_of_toNat {t : BitVec 72} {dir : Bool} {off : Offset} {data : Word}
    (h : t.toNat = dir.toNat * 2 ^ 71 + off.toNat * 2 ^ 64 + data.toNat) :
    transactionOfBus t = { we := dir, off := off, size := 3, wdata := data } := by
  have hoff := off.isLt
  have hdata := data.isLt
  unfold transactionOfBus
  congr 1
  · rw [BitVec.getLsbD, Nat.testBit_eq_decide_div_mod_eq, h]
    cases dir <;> simp <;> omega
  · apply BitVec.eq_of_toNat_eq
    simp only [field, BitVec.extractLsb_toNat, Nat.shiftRight_eq_div_pow, h]
    cases dir <;> simp <;> omega
  · apply BitVec.eq_of_toNat_eq
    simp only [field, BitVec.extractLsb_toNat, Nat.shiftRight_eq_div_pow, h]
    cases dir <;> simp <;> omega

@[simp] theorem transactionOfBus_busWord_rd (off : Offset) (data : Word) :
    transactionOfBus (busWord 0#1 off data) = { we := false, off := off, size := 3, wdata := data } :=
  transactionOfBus_of_toNat (busWord_toNat 0 off data)

@[simp] theorem transactionOfBus_busWord_wr (off : Offset) (data : Word) :
    transactionOfBus (busWord 1#1 off data) = { we := true, off := off, size := 3, wdata := data } :=
  transactionOfBus_of_toNat (busWord_toNat 1 off data)

end Sys2Proof
end

