-- ==== Sys2Proof/Laws/State.lean ====
section
/-! SUPPORT. One lemma per field per update, so that no later proof unfolds a record update. -/

namespace Sys2Proof.Machine

/-! ### Updates of the machine -/

section Machine

variable (s : State) (f : Block → Block) (v : Word) (rest : List PortEvent) (e : PortEvent)

@[simp] theorem State.onBlock_block : (s.onBlock f).block = f s.block := rfl
@[simp] theorem State.onBlock_pending : (s.onBlock f).pending = s.pending := rfl
@[simp] theorem State.onBlock_rdata : (s.onBlock f).rdata = s.rdata := rfl

@[simp] theorem State.answer_block : (s.answer v).block = s.block := rfl
@[simp] theorem State.answer_pending : (s.answer v).pending = s.pending := rfl
@[simp] theorem State.answer_rdata : (s.answer v).rdata = some v := rfl

@[simp] theorem State.accept_block : (s.accept rest).block = s.block := rfl
@[simp] theorem State.accept_pending : (s.accept rest).pending = rest := rfl
@[simp] theorem State.accept_rdata : (s.accept rest).rdata = none := rfl

@[simp] theorem State.resetBlock_block : s.resetBlock.block = Block.reset := rfl
@[simp] theorem State.resetBlock_pending : s.resetBlock.pending = s.pending := rfl
@[simp] theorem State.resetBlock_rdata : s.resetBlock.rdata = s.rdata := rfl

@[simp] theorem State.present_block : (s.present e).block = s.block := rfl
@[simp] theorem State.present_pending : (s.present e).pending = s.pending ++ [e] := rfl
@[simp] theorem State.present_rdata : (s.present e).rdata = s.rdata := rfl

@[simp] theorem State.presentFirst_block : (s.presentFirst e).block = s.block := rfl
@[simp] theorem State.presentFirst_pending : (s.presentFirst e).pending = e :: s.pending := rfl
@[simp] theorem State.presentFirst_rdata : (s.presentFirst e).rdata = s.rdata := rfl

end Machine

/-! ### Updates of the block -/

section Block

variable (b : Block) (s : List Byte) (n : Nat) (v : Word)

@[simp] theorem Block.pack_cmd : (b.pack s).cmd = b.cmd := rfl
@[simp] theorem Block.pack_ill : (b.pack s).ill = b.ill := rfl
@[simp] theorem Block.pack_operand : (b.pack s).operand = b.operand := rfl
@[simp] theorem Block.pack_inLo : (b.pack s).inLo = b.inLo := rfl
@[simp] theorem Block.pack_inHi : (b.pack s).inHi = b.inHi := rfl
@[simp] theorem Block.pack_inAvail : (b.pack s).inAvail = b.inAvail := rfl
@[simp] theorem Block.pack_outLo : (b.pack s).outLo = packBytes 64 (s.take 8) := rfl
@[simp] theorem Block.pack_outHi : (b.pack s).outHi = packBytes 16 (s.drop 8) := rfl
@[simp] theorem Block.pack_count : (b.pack s).count = BitVec.ofNat 4 s.length := rfl
@[simp] theorem Block.pack_result : (b.pack s).result = b.result := rfl

@[simp] theorem Block.setResult_cmd : (b.setResult v).cmd = b.cmd := rfl
@[simp] theorem Block.setResult_ill : (b.setResult v).ill = b.ill := rfl
@[simp] theorem Block.setResult_operand : (b.setResult v).operand = b.operand := rfl
@[simp] theorem Block.setResult_inLo : (b.setResult v).inLo = b.inLo := rfl
@[simp] theorem Block.setResult_inHi : (b.setResult v).inHi = b.inHi := rfl
@[simp] theorem Block.setResult_inAvail : (b.setResult v).inAvail = b.inAvail := rfl
@[simp] theorem Block.setResult_outLo : (b.setResult v).outLo = b.outLo := rfl
@[simp] theorem Block.setResult_outHi : (b.setResult v).outHi = b.outHi := rfl
@[simp] theorem Block.setResult_count : (b.setResult v).count = b.count := rfl
@[simp] theorem Block.setResult_result : (b.setResult v).result = v := rfl

@[simp] theorem Block.setDecoded_cmd : (b.setDecoded n v).cmd = b.cmd := rfl
@[simp] theorem Block.setDecoded_ill : (b.setDecoded n v).ill = b.ill := rfl
@[simp] theorem Block.setDecoded_operand : (b.setDecoded n v).operand = b.operand := rfl
@[simp] theorem Block.setDecoded_inLo : (b.setDecoded n v).inLo = b.inLo := rfl
@[simp] theorem Block.setDecoded_inHi : (b.setDecoded n v).inHi = b.inHi := rfl
@[simp] theorem Block.setDecoded_inAvail : (b.setDecoded n v).inAvail = b.inAvail := rfl
@[simp] theorem Block.setDecoded_outLo : (b.setDecoded n v).outLo = b.outLo := rfl
@[simp] theorem Block.setDecoded_outHi : (b.setDecoded n v).outHi = b.outHi := rfl
@[simp] theorem Block.setDecoded_count : (b.setDecoded n v).count = BitVec.ofNat 4 n := rfl
@[simp] theorem Block.setDecoded_result : (b.setDecoded n v).result = v := rfl

@[simp] theorem Block.setIll_cmd : b.setIll.cmd = b.cmd := rfl
@[simp] theorem Block.setIll_ill : b.setIll.ill = true := rfl
@[simp] theorem Block.setIll_operand : b.setIll.operand = b.operand := rfl
@[simp] theorem Block.setIll_inLo : b.setIll.inLo = b.inLo := rfl
@[simp] theorem Block.setIll_inHi : b.setIll.inHi = b.inHi := rfl
@[simp] theorem Block.setIll_inAvail : b.setIll.inAvail = b.inAvail := rfl
@[simp] theorem Block.setIll_outLo : b.setIll.outLo = b.outLo := rfl
@[simp] theorem Block.setIll_outHi : b.setIll.outHi = b.outHi := rfl
@[simp] theorem Block.setIll_count : b.setIll.count = b.count := rfl
@[simp] theorem Block.setIll_result : b.setIll.result = b.result := rfl

/-- A STATUS write touches ILL alone (R55). -/
theorem Block.writeStatus_eq : b.writeStatus v = { b with ill := b.ill && !v.getLsbD 0 } := by
  unfold Block.writeStatus; cases v.getLsbD 0 <;> simp

end Block

end Sys2Proof.Machine
end

