-- ==== Sys2Proof/Laws/Exec.lean ====
section
/-! SUPPORT. What each shared operation of the machine can do, said once: the register at an offset, the commands, the
two host transactions, and the step. -/

namespace Sys2Proof.Machine

/-! ### The register at an offset -/

/-- An offset names no register exactly when it is misaligned (R51, R52). -/
theorem regAt_eq_none {off : Offset} : regAt off = none ↔ off.toNat % 8 ≠ 0 := by
  revert off; decide

/-- The window map of R51. -/
theorem regAt_eq_some {off : Offset} {r : Reg} : regAt off = some r ↔
    match r with
    | .cmd => off = 0x00
    | .status => off = 0x08
    | .operand => off = 0x10
    | .inLo => off = 0x18
    | .inHi => off = 0x20
    | .inAvail => off = 0x28
    | .outLo => off = 0x30
    | .outHi => off = 0x38
    | .count => off = 0x40
    | .result => off = 0x48
    | .reserved => 0x50 ≤ off ∧ off.toNat % 8 = 0 := by
  cases r <;> revert off <;> decide

/-! ### The commands -/

/-- The effect of a command on the block (R203). -/
def commandEffect (k : Command) (b : Block) : Block :=
  match k with
  | ⟨.vencU, w⟩ => b.pack (encodeVarint w.bits (b.operandOf w.bits))
  | ⟨.vdecU, w⟩ => b.setDecoded (decodeVarint w.bits b.inputSeq).1 (zext64 (decodeVarint w.bits b.inputSeq).2)
  | ⟨.vencS, w⟩ => b.pack (encodeSvarint w.bits (b.operandOf w.bits))
  | ⟨.vdecS, w⟩ => b.setDecoded (decodeSvarint w.bits b.inputSeq).1 (sext64 (decodeSvarint w.bits b.inputSeq).2)
  | ⟨.zzenc, w⟩ => b.setResult (zext64 (zigzagEncode w.bits (b.operandOf w.bits)))
  | ⟨.zzdec, w⟩ => b.setResult (sext64 (zigzagDecode w.bits (b.operandOf w.bits)))

/-- Every command completes in every state, with its effect on the block and no other. -/
theorem runCommand_eq (k : Command) (s : State) : runCommand k s = .next (s.onBlock (commandEffect k)) := by
  obtain ⟨op, w⟩ := k; cases op <;> cases w <;> rfl

theorem exec_toInstr (k : Command) (s : State) : exec k.toInstr s = .next (s.onBlock (commandEffect k)) := by
  obtain ⟨op, w⟩ := k; cases op <;> cases w <;> rfl

/-- The effect of a word written to CMD, after CMD holds it (R203, R222). -/
def performEffect (c : Word) (b : Block) : Block :=
  match decodeCommand c with
  | some k => commandEffect k b
  | none => b.setIll

theorem perform_eq (c : Word) (s : State) : perform c s = .next (s.onBlock (performEffect c)) := by
  unfold perform performEffect
  cases decodeCommand c with
  | none => rfl
  | some k => exact runCommand_eq k s

/-- No command writes an input, CMD or ILL (R24, R29). -/
theorem commandEffect_inputs (k : Command) (b : Block) :
    (commandEffect k b).cmd = b.cmd ∧ (commandEffect k b).ill = b.ill ∧
    (commandEffect k b).operand = b.operand ∧ (commandEffect k b).inLo = b.inLo ∧
    (commandEffect k b).inHi = b.inHi ∧ (commandEffect k b).inAvail = b.inAvail := by
  obtain ⟨op, w⟩ := k; cases op <;> exact ⟨rfl, rfl, rfl, rfl, rfl, rfl⟩

/-! ### The host's transactions -/

theorem exec_rd (off : Offset) (s : State) : exec (.rd off) s = execRd off s := rfl

theorem exec_wr (off : Offset) (v : Word) (s : State) : exec (.wr off v) s = execWr off v s := rfl

/-- A read that answers: the register's value, and nothing else changed. -/
theorem execRd_next {off : Offset} {s t : State} (h : execRd off s = .next t) :
    ∃ r, regAt off = some r ∧ t = s.answer (s.block.read r) := by
  unfold execRd at h
  split at h
  · cases h
  · rename_i r hr; cases h; exact ⟨r, hr, rfl⟩

/-- The effect of a write on the block, by register (R202). -/
def writeEffect (r : Reg) (v : Word) (b : Block) : Block :=
  match r with
  | .cmd => performEffect v { b with cmd := v }
  | .status => b.writeStatus v
  | .operand => { b with operand := v }
  | .inLo => { b with inLo := v }
  | .inHi => { b with inHi := v }
  | .inAvail => { b with inAvail := v }
  | .outLo | .outHi | .count | .result | .reserved => b

theorem execWr_eq {off : Offset} {r : Reg} (v : Word) (s : State) (h : regAt off = some r) :
    execWr off v s = .next (s.onBlock (writeEffect r v)) := by
  unfold execWr
  rw [h]
  cases r <;> first | rfl | exact perform_eq v _

/-- A write that completes: the effect of its register, and nothing else changed. -/
theorem execWr_next {off : Offset} {v : Word} {s t : State} (h : execWr off v s = .next t) :
    ∃ r, regAt off = some r ∧ t = s.onBlock (writeEffect r v) := by
  cases hr : regAt off with
  | none => unfold execWr at h; rw [hr] at h; cases h
  | some r => rw [execWr_eq v s hr] at h; cases h; exact ⟨r, rfl, rfl⟩

/-! ### The step -/

/-- Everything a step that happens can be: reset, a read of a register, or a write of one (R200, R252). -/
theorem step_cases {s t : State} (h : step s = .next t) :
    ∃ e rest, s.pending = e :: rest ∧
      ((e = .reset ∧ t = (s.accept rest).resetBlock) ∨
       (∃ a r, e = .access a ∧ a.size = 3 ∧ regAt a.off = some r ∧ a.we = false ∧
          t = (s.accept rest).answer (s.block.read r)) ∨
       (∃ a r, e = .access a ∧ a.size = 3 ∧ regAt a.off = some r ∧ a.we = true ∧
          t = (s.accept rest).onBlock (writeEffect r a.wdata))) := by
  unfold step at h
  split at h
  · cases h
  · rename_i rest hp; cases h; exact ⟨_, rest, hp, .inl ⟨rfl, rfl⟩⟩
  · rename_i a rest hp
    refine ⟨_, rest, hp, .inr ?_⟩
    split at h
    · rename_i i hi
      unfold decodeTransaction at hi
      split at hi
      · cases hi
      · rename_i hsize
        split at hi
        · cases hi
        · split at hi
          · rename_i hwe
            cases hi
            obtain ⟨r, hr, rfl⟩ := execWr_next h
            exact .inr ⟨a, r, rfl, not_not.1 hsize, hr, hwe, rfl⟩
          · rename_i hwe
            cases hi
            obtain ⟨r, hr, rfl⟩ := execRd_next h
            exact .inl ⟨a, r, rfl, not_not.1 hsize, hr, by simpa using hwe, rfl⟩
    · cases h

end Sys2Proof.Machine
end

