-- ==== Sys2Proof/Laws/PerInstr.lean ====
section
/-! SUPPORT. Statements about every instruction as a term, one lemma per constructor. -/

namespace Sys2Proof.Laws.RoundTrip

/-- The encoding of a well-formed instruction decodes to it, with every operand (R81, R85, R92). -/
def Statement (i : Instr) : Prop := i.WellFormed → decode (encode i) = .ok i

theorem ofCommand (k : Command) : Statement k.toInstr := by
  intro _
  simp [decode]

theorem vencU16 : Statement .vencU16 := ofCommand ⟨.vencU, .w16⟩
theorem vencU32 : Statement .vencU32 := ofCommand ⟨.vencU, .w32⟩
theorem vencU64 : Statement .vencU64 := ofCommand ⟨.vencU, .w64⟩
theorem vdecU16 : Statement .vdecU16 := ofCommand ⟨.vdecU, .w16⟩
theorem vdecU32 : Statement .vdecU32 := ofCommand ⟨.vdecU, .w32⟩
theorem vdecU64 : Statement .vdecU64 := ofCommand ⟨.vdecU, .w64⟩
theorem vencS16 : Statement .vencS16 := ofCommand ⟨.vencS, .w16⟩
theorem vencS32 : Statement .vencS32 := ofCommand ⟨.vencS, .w32⟩
theorem vencS64 : Statement .vencS64 := ofCommand ⟨.vencS, .w64⟩
theorem vdecS16 : Statement .vdecS16 := ofCommand ⟨.vdecS, .w16⟩
theorem vdecS32 : Statement .vdecS32 := ofCommand ⟨.vdecS, .w32⟩
theorem vdecS64 : Statement .vdecS64 := ofCommand ⟨.vdecS, .w64⟩
theorem zzenc16 : Statement .zzenc16 := ofCommand ⟨.zzenc, .w16⟩
theorem zzenc32 : Statement .zzenc32 := ofCommand ⟨.zzenc, .w32⟩
theorem zzenc64 : Statement .zzenc64 := ofCommand ⟨.zzenc, .w64⟩
theorem zzdec16 : Statement .zzdec16 := ofCommand ⟨.zzdec, .w16⟩
theorem zzdec32 : Statement .zzdec32 := ofCommand ⟨.zzdec, .w32⟩
theorem zzdec64 : Statement .zzdec64 := ofCommand ⟨.zzdec, .w64⟩

theorem rd (off : Offset) : Statement (.rd off) := by
  intro h
  have h' : isAligned off = true := h
  simp [encode, decode, decodeTransaction, h']

theorem wr (off : Offset) (data : Word) : Statement (.wr off data) := by
  intro h
  have h' : isAligned off = true := h
  simp [encode, decode, decodeTransaction, h']

end Sys2Proof.Laws.RoundTrip
end

