-- ==== Sys2Proof/Tests/Slice0.lean ====
section
/-! SUPPORT. Tests of the model, each expected value from the spec's encodings and vectors (spec/95_test_vectors.md
Parts 1 to 3, and the corner cases of each command's rule), and a named witness for the hypotheses of each obligation
that has any. -/

namespace Sys2Proof.Tests

open Sys2Proof.Machine Sys2Proof.Claims

/-! ### Helpers -/

/-- The state of an answer; the reset state when there is none. -/
def after (a : Answer) : State :=
  match a with
  | .next t => t
  | _ => State.reset

/-- The block an instruction leaves; none if it does not complete. -/
def blockAfter (i : Instr) (b : Block) : Option Block :=
  match exec i { State.reset with block := b } with
  | .next t => some t.block
  | _ => none

/-- The outputs of an encode. -/
def encoded (i : Instr) (operand : Word) : Option (Word × BitVec 16 × BitVec 4) :=
  (blockAfter i { Block.reset with operand := operand }).map fun b => (b.outLo, b.outHi, b.count)

/-- The outputs of a decode. -/
def decoded (i : Instr) (inLo inHi inAvail : Word) : Option (BitVec 4 × Word) :=
  (blockAfter i { Block.reset with inLo := inLo, inHi := inHi, inAvail := inAvail }).map fun b => (b.count, b.result)

/-- The output of a zigzag command. -/
def mapped (i : Instr) (operand : Word) : Option Word :=
  (blockAfter i { Block.reset with operand := operand }).map Block.result

/-- A block with a different value in every register. -/
def mixed : Block where
  cmd := 0x14
  ill := true
  operand := 0x12345
  inLo := 0x8001807F02AC
  inHi := 0xABCD0000000001FF
  inAvail := 6
  outLo := 0x2AC
  outHi := 0
  count := 2
  result := 0x7F

/-- The reset state with inputs presented. -/
def presented (pending : List PortEvent) : State := { State.reset with pending := pending }

/-- The mixed block with inputs presented. -/
def mixedPresented (pending : List PortEvent) : State := ⟨mixed, pending, none⟩

/-! ### WellFormed refuses ill-formed terms -/

theorem test_rd_misaligned_ill_formed : ¬ (Instr.rd 0x41).WellFormed ∧ ¬ (Instr.rd 0x7C).WellFormed := by decide

theorem test_wr_misaligned_ill_formed : ¬ (Instr.wr 0x12 5).WellFormed ∧ ¬ (Instr.wr 0x04 5).WellFormed := by decide

theorem test_aligned_well_formed : (Instr.rd 0x78).WellFormed ∧ (Instr.wr 0x00 0x14).WellFormed := by decide

/-! ### Decoding: the words of R81 to R85 and R92, bit by bit -/

theorem test_decode_venc_u : decode (.cmd 0b00010001) = .ok .vencU16 ∧ decode (.cmd 0b00010010) = .ok .vencU32 ∧
    decode (.cmd 0b00010011) = .ok .vencU64 := by decide

theorem test_decode_vdec_u : decode (.cmd 0b00100001) = .ok .vdecU16 ∧ decode (.cmd 0b00100010) = .ok .vdecU32 ∧
    decode (.cmd 0b00100011) = .ok .vdecU64 := by decide

theorem test_decode_venc_s : decode (.cmd 0b00110001) = .ok .vencS16 ∧ decode (.cmd 0b00110010) = .ok .vencS32 ∧
    decode (.cmd 0b00110011) = .ok .vencS64 := by decide

theorem test_decode_vdec_s : decode (.cmd 0b01000001) = .ok .vdecS16 ∧ decode (.cmd 0b01000010) = .ok .vdecS32 ∧
    decode (.cmd 0b01000011) = .ok .vdecS64 := by decide

theorem test_decode_zzenc : decode (.cmd 0b01010001) = .ok .zzenc16 ∧ decode (.cmd 0b01010010) = .ok .zzenc32 ∧
    decode (.cmd 0b01010011) = .ok .zzenc64 := by decide

theorem test_decode_zzdec : decode (.cmd 0b01100001) = .ok .zzdec16 ∧ decode (.cmd 0b01100010) = .ok .zzdec32 ∧
    decode (.cmd 0b01100011) = .ok .zzdec64 := by decide

/-- P1 lines 1 and 5, P5 lines 15 and 18 (95 Part 3): dir, off, data. -/
theorem test_decode_bus :
    decode (.bus (0b1#1 ++ 0b0010000#7 ++ 0x12C#64)) = .ok (.wr 0x10 300) ∧
    decode (.bus 0x40_0000000000000000) = .ok (.rd 0x40) ∧
    decode (.bus 0xC0_0000000000000005) = .ok (.wr 0x40 5) ∧
    decode (.bus 0xD0_0000000000000001) = .ok (.wr 0x50 1) := by decide

/-- A read ignores its data bits (R92). -/
theorem test_decode_rd_ignores_data : decode (.bus 0x48_00000000000000FF) = .ok (.rd 0x48) := by decide

/-- The illegal words of 95 Part 2.7: a reserved OP, WIDTH = 00, RSVL, RSVH. -/
theorem test_decode_illegal : ([0x0, 0x10, 0x14, 0x71, 0x01, 0x113, 0x8000000000000012] : List Word).map
    (fun c => decode (.cmd c)) = List.replicate 7 (.error .illegalCommand) := by decide

theorem test_decode_bus_misaligned :
    decode (.bus 0x41_0000000000000000) = .error (.notAdmitted .misaligned) := by decide

theorem test_decode_narrow :
    decodeTransaction { we := false, off := 0x40, size := 2, wdata := 0 } = .error .narrow := by decide

theorem test_table_words : decodeTableWord 64 0x11 = some .vencU16 ∧ decodeTableWord 72 0 = some (.rd 0) ∧
    decodeTableWord 72 (2 ^ 71) = some (.wr 0 0) := by decide

/-! ### Results: 95 Part 2, Part 1, and the corner cases of the rules -/

theorem test_vencU16_bounds : encoded .vencU16 0x3FFF = some (0x7FFF, 0, 2) ∧
    encoded .vencU16 0xFFFF = some (0x3FFFF, 0, 3) := by decide

theorem test_vencU16_ignores_high_operand : encoded .vencU16 0x12345 = some (0x46C5, 0, 2) ∧
    encoded .vencU16 0xFFFF0000 = some (0, 0, 1) := by decide

theorem test_vencU32_example : encoded .vencU32 0x12C = some (0x2AC, 0, 2) := by decide

theorem test_vencU32_bounds : encoded .vencU32 0x10000000 = some (0x180808080, 0, 5) ∧
    encoded .vencU32 0xFFFFFFFF = some (0xFFFFFFFFF, 0, 5) := by decide

theorem test_vencU64_fills_outLo : encoded .vencU64 0xFFFFFFFFFFFFFF = some (0x7FFFFFFFFFFFFFFF, 0, 8) ∧
    encoded .vencU64 0x100000000000000 = some (0x8080808080808080, 0x1, 9) := by decide

theorem test_vencU64_maximum : encoded .vencU64 0xFFFFFFFFFFFFFFFF = some (0xFFFFFFFFFFFFFFFF, 0x1FF, 10) ∧
    encoded .vencU64 0x8000000000000000 = some (0x8080808080808080, 0x180, 10) := by decide

theorem test_vdecU16_results : decoded .vdecU16 0x2AC 0 2 = some (2, 0x12C) ∧
    decoded .vdecU16 0x4FFFF 0 3 = some (3, 0x3FFF) ∧ decoded .vdecU16 0x80 0 2 = some (2, 0) := by decide

theorem test_vdecU16_failures : decoded .vdecU16 0xFFFFFF 0 3 = some (0, 0) ∧
    decoded .vdecU16 0xFFFF 0 2 = some (0, 0) ∧ decoded .vdecU16 0x1808080 0 4 = some (0, 0) := by decide

theorem test_vdecU32_results : decoded .vdecU32 0x2AC 0 0xFFFFFFFFFFFFFFFF = some (2, 0x12C) ∧
    decoded .vdecU32 0x10FFFFFFFF 0 5 = some (5, 268435455) := by decide

theorem test_vdecU32_failures : decoded .vdecU32 0x7F 0 0 = some (0, 0) ∧
    decoded .vdecU32 0x018080808080 0 6 = some (0, 0) := by decide

theorem test_vdecU64_reads_inHi : decoded .vdecU64 0xFFFFFFFFFFFFFFFF 0x1FF 10 = some (10, 0xFFFFFFFFFFFFFFFF) ∧
    decoded .vdecU64 0xFFFFFFFFFFFFFFFF 0x2FF 10 = some (10, 0x7FFFFFFFFFFFFFFF) := by decide

theorem test_vdecU64_truncated : decoded .vdecU64 0x8080808080808080 0x180 9 = some (0, 0) ∧
    decoded .vdecU64 0x8080808080808080 0xABCD000000000180 10 = some (10, 0x8000000000000000) := by decide

theorem test_zzenc16 : mapped .zzenc16 0xFFFF = some 0x1 ∧ mapped .zzenc16 0xFFFFFFFFFFFF8000 = some 0xFFFF ∧
    mapped .zzenc16 0x4000 = some 0x8000 := by decide

theorem test_zzenc32 : mapped .zzenc32 0xFFFFFFFE = some 0x3 ∧ mapped .zzenc32 0x80000000 = some 0xFFFFFFFF ∧
    mapped .zzenc32 0x7FFFFFFF = some 0xFFFFFFFE := by decide

theorem test_zzenc64 : mapped .zzenc64 0x8000000000000000 = some 0xFFFFFFFFFFFFFFFF ∧
    mapped .zzenc64 0xC000000000000000 = some 0x7FFFFFFFFFFFFFFF ∧ mapped .zzenc64 0x1 = some 0x2 := by decide

theorem test_zzdec16 : mapped .zzdec16 0x1 = some 0xFFFFFFFFFFFFFFFF ∧
    mapped .zzdec16 0xFFFF = some 0xFFFFFFFFFFFF8000 ∧ mapped .zzdec16 0xFFFE = some 0x7FFF := by decide

theorem test_zzdec32 : mapped .zzdec32 0xFFFFFFFF00000003 = some 0xFFFFFFFFFFFFFFFE ∧
    mapped .zzdec32 0xFFFFFFFF = some 0xFFFFFFFF80000000 ∧ mapped .zzdec32 600 = some 300 := by decide

theorem test_zzdec64 : mapped .zzdec64 0xFFFFFFFFFFFFFFFF = some 0x8000000000000000 ∧
    mapped .zzdec64 0xFFFFFFFFFFFFFFFE = some 0x7FFFFFFFFFFFFFFF := by decide

theorem test_vencS16 : encoded .vencS16 0xFFFFFFFFFFFFFFFF = some (0x1, 0, 1) ∧
    encoded .vencS16 0x40 = some (0x180, 0, 2) ∧ encoded .vencS16 0x8000 = some (0x3FFFF, 0, 3) := by decide

theorem test_vencS32 : encoded .vencS32 0x12C = some (0x4D8, 0, 2) ∧
    encoded .vencS32 0xFFFFFFFF80000000 = some (0xFFFFFFFFF, 0, 5) := by decide

theorem test_vencS64 : encoded .vencS64 0x7FFFFFFFFFFFFFFF = some (0xFFFFFFFFFFFFFFFE, 0x1FF, 10) ∧
    encoded .vencS64 0xC000000000000000 = some (0xFFFFFFFFFFFFFFFF, 0x7F, 9) := by decide

theorem test_vdecS16 : decoded .vdecS16 0x7F 0 1 = some (1, 0xFFFFFFFFFFFFFFC0) ∧
    decoded .vdecS16 0x3FFFF 0 3 = some (3, 0xFFFFFFFFFFFF8000) ∧ decoded .vdecS16 0xFFFF 0 2 = some (0, 0) := by
  decide

theorem test_vdecS32 : decoded .vdecS32 0x4D7 0 2 = some (2, 0xFFFFFFFFFFFFFED4) ∧
    decoded .vdecS32 0xFF05 0 2 = some (1, 0xFFFFFFFFFFFFFFFD) := by decide

theorem test_vdecS64 : decoded .vdecS64 0xFFFFFFFFFFFFFFFF 0x2FF 10 = some (10, 0xC000000000000000) ∧
    decoded .vdecS64 0xFFFFFFFFFFFFFFFE 0x1FF 10 = some (10, 0x7FFFFFFFFFFFFFFF) := by decide

/-! ### The host's transactions: 95 Part 2.7 -/

theorem test_rd_status_and_reserved : (after (exec (.rd 0x08) (mixedPresented []))).rdata = some 1 ∧
    (after (exec (.rd 0x58) (mixedPresented []))).rdata = some 0 := by decide

theorem test_rd_inHi_whole : (after (exec (.rd 0x20) (mixedPresented []))).rdata = some 0xABCD0000000001FF := by decide

theorem test_wr_status_w1c : (blockAfter (.wr 0x08 0xFFFFFFFFFFFFFFFE) mixed).map Block.ill = some true ∧
    (blockAfter (.wr 0x08 0x1) mixed).map Block.ill = some false := by decide

theorem test_wr_cmd_illegal : blockAfter (.wr 0x00 0x8000000000000012) Block.reset =
    some { Block.reset with cmd := 0x8000000000000012, ill := true } := by decide

theorem test_wr_read_only_ignored : blockAfter (.wr 0x40 5) mixed = some mixed ∧
    blockAfter (.wr 0x58 0x1234) mixed = some mixed := by decide

theorem test_wr_cmd_keeps_ill : (blockAfter (.wr 0x00 0x12) mixed).map (fun b => (b.ill, b.cmd, b.outLo, b.result)) =
    some (true, 0x12, 0x4C6C5, 0x7F) := by decide

/-! ### The step, the input of a program, and assembly -/

theorem test_step_presented_command : (after (step (State.reset.withFetchWord 64 0x71))).block =
    { Block.reset with cmd := 0x71, ill := true } := by decide

theorem test_step_presented_bus : (after (step (State.reset.withFetchWord 72 0x90_000000000000012C))).block =
    { Block.reset with operand := 0x12C } := by decide

theorem test_step_reset : (after (step (mixedPresented [.reset]))).block = Block.reset := by decide

theorem test_step_nothing_presented : step State.reset = .refused .noTransaction := rfl

theorem test_step_narrow : step (presented [.access { we := true, off := 0x00, size := 2, wdata := 0x11 }]) =
    .refused (.notAdmitted .narrow) := rfl

/-- P1 line 1, P3 line 1, P5 lines 13 and 18, with a comment as R94 allows. -/
theorem test_assemble_wr : assemble "wr OPERAND, 300" = some (transactionOfBus 0x90_000000000000012C) ∧
    assemble "wr OPERAND, -1" = some (transactionOfBus 0x90_FFFFFFFFFFFFFFFF) ∧
    assemble "clrill" = some (transactionOfBus 0x88_0000000000000001) ∧
    assemble "wr 0x50, 1  ; reserved" = some (transactionOfBus 0xD0_0000000000000001) := by decide

theorem test_assemble_rd : assemble "rd COUNT ; -> 2" = some (transactionOfBus 0x40_0000000000000000) ∧
    assemble "RD COUNT" = none ∧ assemble "rd count" = none := by decide

/-! ### Witnesses: states and operands that meet the hypotheses of each obligation -/

/-- An answer is the next state it holds: what `exec i s = .next t` and `step s = .next t` ask of `t`. -/
def completes (a : Answer) : Bool :=
  match a with
  | .next _ => true
  | _ => false

theorem next_after {a : Answer} (h : completes a = true) : a = .next (after a) := by
  cases a with
  | next t => rfl
  | fault _ => cases h
  | refused _ => cases h

theorem witness_CommandWordsDecodeByOpcodeMap :
    (0x11, Instr.vencU16) ∈ opcodeMap ∧ (0x63, Instr.zzdec64) ∈ opcodeMap ∧
    (∀ i : Instr, (0x10, i) ∉ opcodeMap) ∧ (∀ i : Instr, (0x64, i) ∉ opcodeMap) := by
  refine ⟨by decide, by decide, ?_, ?_⟩ <;> intro i <;> simp [opcodeMap]

theorem witness_ExactlyEighteenLegalWords : LegalWord 0x11 ∧ LegalWord 0x63 ∧ ¬ LegalWord 0x01 ∧ ¬ LegalWord 0x71 ∧
    ¬ LegalWord 0x10 ∧ ¬ LegalWord 0x14 ∧ ¬ LegalWord 0x113 ∧ ¬ LegalWord 0x8000000000000012 := by decide

theorem witness_DecodeOfEncodeIsIdentity : (Instr.rd 0x00).WellFormed ∧ (Instr.rd 0x78).WellFormed ∧
    (Instr.wr 0x78 0xFFFFFFFFFFFFFFFF).WellFormed ∧ Instr.vencU16.WellFormed := by decide

theorem witness_BusWordsDecodeByFields :
    (0xF8_FFFFFFFFFFFFFFFF : BitVec 72).toNat = 2 ^ 71 + (0x78 : Offset).toNat * 2 ^ 64 + (-1 : Word).toNat ∧
    (0x41_0000000000000000 : BitVec 72).toNat = 0 + (0x41 : Offset).toNat * 2 ^ 64 + (0 : Word).toNat := by decide

theorem witness_StepRunsDecodedTransaction :
    (mixedPresented [.access (busWrite 0x00 0x11), .reset]).pending = [.access (busWrite 0x00 0x11), .reset] ∧
    decodeTransaction (busWrite 0x00 0x11) = .ok (.wr 0x00 0x11) ∧
    decodeTransaction (busRead 0x78) = .ok (.rd 0x78) := by decide

theorem witness_IssuedInstructionRuns : Instr.zzdec64.WellFormed ∧ (Instr.wr 0x00 0x14).WellFormed ∧
    completes (step ((mixedPresented [.reset]).presentFirst (.access (encode .zzdec64).transaction))) = true := by
  decide

theorem witness_TableWordRunsInNextStep : decodeTableWord 64 0x63 = some .zzdec64 ∧
    decodeTableWord 72 0xF8_FFFFFFFFFFFFFFFF = some (.wr 0x78 0xFFFFFFFFFFFFFFFF) := by decide

theorem witness_IllegalWordSetsIllOnly : ¬ LegalWord 0x0 ∧ ¬ LegalWord 0x64 ∧ ¬ LegalWord 0x111 := by decide

theorem witness_NotAdmittedIsRefused :
    (mixedPresented [.access ⟨true, 0x00, 2, 0x11⟩]).pending = [.access ⟨true, 0x00, 2, 0x11⟩] ∧
    ¬ ((2 : BitVec 2).toNat = 3 ∧ (0x00 : Offset).toNat % 8 = 0) ∧
    (0x01 : Offset).toNat % 8 ≠ 0 ∧ (0x7F : Offset).toNat % 8 ≠ 0 := by decide

theorem witness_StepsExactlyOnAdmittedInput :
    step (presented [.reset, .reset]) = .next (after (step (presented [.reset, .reset]))) ∧
    step (presented [.access (busRead 0x78)]) = .next (after (step (presented [.access (busRead 0x78)]))) :=
  ⟨next_after (by decide), next_after (by decide)⟩

theorem witness_WellDrivenRunServesEveryInput :
    (mixedPresented [.access (busWrite 0x00 0x14), .reset, .access (busRead 0x78)]).WellDriven := by
  unfold State.WellDriven; decide

/-- The clauses of the reserved and of the misaligned offsets at both ends of their ranges, and of a narrow read. -/
theorem witness_ReadReturnsRegister :
    (0x50 ≤ (0x50 : Offset).toNat ∧ (0x50 : Offset).toNat % 8 = 0) ∧
    (0x50 ≤ (0x78 : Offset).toNat ∧ (0x78 : Offset).toNat % 8 = 0) ∧
    (0x01 : Offset).toNat % 8 ≠ 0 ∧ (0x7F : Offset).toNat % 8 ≠ 0 ∧
    (mixedPresented [.access ⟨false, 0x40, 2, 0⟩]).pending = [.access ⟨false, 0x40, 2, 0⟩] ∧
    (2 : BitVec 2).toNat ≠ 3 := by decide

/-- The clauses of the read-only and reserved offsets at both ends of their range, and of a narrow write. -/
theorem witness_WriteEffectByOffset :
    (0x30 ≤ (0x30 : Offset).toNat ∧ (0x30 : Offset).toNat % 8 = 0) ∧
    (0x30 ≤ (0x78 : Offset).toNat ∧ (0x78 : Offset).toNat % 8 = 0) ∧
    (0x01 : Offset).toNat % 8 ≠ 0 ∧ (0x7F : Offset).toNat % 8 ≠ 0 ∧
    (mixedPresented [.access ⟨true, 0x10, 0, 7⟩]).pending = [.access ⟨true, 0x10, 0, 7⟩] ∧
    (0 : BitVec 2).toNat ≠ 3 := by decide

theorem witness_ReadsHaveNoSideEffect :
    exec (.rd 0x78) (mixedPresented []) = .next (after (exec (.rd 0x78) (mixedPresented []))) ∧
    exec .vdecU32 (after (exec (.rd 0x78) (mixedPresented []))) =
      .next (after (exec .vdecU32 (after (exec (.rd 0x78) (mixedPresented []))))) :=
  ⟨next_after (by decide), next_after (by decide)⟩

theorem witness_ResetZeroesEveryRegister :
    (mixedPresented [.reset, .access (busRead 0x00)]).pending = [.reset, .access (busRead 0x00)] := by decide

/-- The first and last byte of the window, and the first address behind it; the base is open. -/
theorem witness_PlatformAccessReachesWindow :
    (⟨true, Config.vzcBase + 0, 3, 7⟩ : HostAccess).addr = Config.vzcBase + 0 ∧
    (⟨true, Config.vzcBase + 127, 3, 7⟩ : HostAccess).addr = Config.vzcBase + 127 ∧
    Config.vzcBase + 128 ≤ (⟨true, Config.vzcBase + 128, 3, 7⟩ : HostAccess).addr :=
  ⟨rfl, rfl, Nat.le_refl _⟩

theorem witness_EncodeVarintIsTheGroupLoop : 127 < 2 ^ Width.w16.bits ∧ 128 < 2 ^ Width.w16.bits ∧
    2 ^ 64 - 1 < 2 ^ Width.w64.bits := by decide

/-- A terminating byte at index 1, and at the last index of the width, and no terminating byte. -/
theorem witness_DecodeVarintReadsToTerminator :
    (1 < min 2 (maxGroups .w16) ∧ (0x02 : Byte).toNat < 128 ∧ 128 ≤ (0xAC : Byte).toNat) ∧
    (9 < min 10 (maxGroups .w64)) ∧
    (∀ k < min 2 (maxGroups .w16), 128 ≤ (([0xFF, 0xFF] : List Byte).getD k 0).toNat) := by decide

theorem witness_DecodeFailsExactlyOnUnterminatedInput :
    (decodeVarint Width.w16.bits []).1 = 0 ∧ (decodeVarint Width.w16.bits [0xFF, 0xFF]).1 = 0 ∧
    (decodeVarint Width.w16.bits [0x80, 0x80, 0x80, 0x01]).1 = 0 := by decide

theorem witness_ByteLanesAreLittleEndian : 0 < 10 ∧ 9 < 10 ∧ 7 < 8 := by decide

theorem witness_ExcessBitsOfLastGroupAreDiscarded :
    (([0xFF, 0xFF] : List Byte).length + 1 = maxGroups .w16 ∧ (∀ b ∈ ([0xFF, 0xFF] : List Byte), b.getLsbD 7 = true)) ∧
    ((List.replicate 4 0x80 : List Byte).length + 1 = maxGroups .w32) ∧
    ((List.replicate 9 0x80 : List Byte).length + 1 = maxGroups .w64 ∧
      ∀ b ∈ (List.replicate 9 0x80 : List Byte), b.getLsbD 7 = true) ∧
    (0x7F : Byte).getLsbD 7 = false := by decide

/-- The non-minimal vectors of 95 Part 2.2: one zero group, and as many as G(W) allows. -/
theorem test_padZeroGroups : padZeroGroups 1 (encodeVarint 16 0) = [0x80, 0x00] ∧
    padZeroGroups 2 (encodeVarint 16 0) = [0x80, 0x80, 0x00] ∧
    padZeroGroups 4 (encodeVarint 32 0) = [0x80, 0x80, 0x80, 0x80, 0x00] := by decide

/-- The first clause with one continuation byte and with G(W) - 1 of them; the second with the shortest encoding and the
most zero groups that fit, and with the longest encoding that leaves room for one. -/
theorem witness_NonMinimalEncodingIsAccepted :
    (∀ init ∈ ([[0x80], [0xFF, 0x80]] : List (List Byte)), init ≠ [] ∧ (∀ b ∈ init, b.getLsbD 7 = true) ∧
      init.length + 1 ≤ maxGroups .w16) ∧
    varintLen (0 : BitVec 16).toNat + 2 ≤ maxGroups .w16 ∧ varintLen (0 : BitVec 32).toNat + 4 ≤ maxGroups .w32 ∧
    varintLen (0x3FFF : BitVec 16).toNat + 1 ≤ maxGroups .w16 := by
  have h : Nat.size 16383 ≤ 14 := Nat.size_le.2 (by decide)
  refine ⟨by decide, by simp [varintLen, maxGroups], by simp [varintLen, maxGroups], ?_⟩
  show max 1 ((Nat.size 16383 + 6) / 7) + 1 ≤ 3
  omega

theorem witness_UnreadBytesDoNotAffectDecode :
    (∃ b ∈ ([0x05] : List Byte), b.getLsbD 7 = false) ∧
    maxGroups .w16 ≤ ([0x80, 0x80, 0x80] : List Byte).length := by decide

/-- No byte of a one-byte encoding, and all bytes but the last of a two-byte one. -/
theorem witness_TruncatedEncodingGivesSentinel :
    0 < varintLen (0 : BitVec 16).toNat ∧ 1 < varintLen (0x80 : BitVec 16).toNat := by
  have h : 7 < Nat.size 128 := Nat.lt_size.2 (by decide)
  refine ⟨by simp [varintLen], ?_⟩
  show 1 < max 1 ((Nat.size 128 + 6) / 7)
  omega

/-- One word of each kind, at the ends of the opcode map, and an illegal word. -/
theorem witness_CommandWritesOnlyItsOutputs :
    ∀ c ∈ ([0x11, 0x33, 0x21, 0x43, 0x51, 0x63, 0x64] : List Word),
      exec (.wr 0x00 c) (mixedPresented []) = .next (after (exec (.wr 0x00 c) (mixedPresented []))) := by
  intro c hc
  apply next_after
  simp only [List.mem_cons, List.not_mem_nil, or_false] at hc
  rcases hc with rfl | rfl | rfl | rfl | rfl | rfl | rfl <;> decide

/-- Operands that agree on bits 15:0 and differ above. -/
theorem witness_ValueCommandsReadOnlyLowOperand :
    (mixed.operand.setWidth Width.w16.bits = ({ Block.reset with operand := 0x2345 } : Block).operand.setWidth
      Width.w16.bits) ∧
    ∀ i ∈ [vencU .w16, vencS .w16, zzenc .w16, zzdec .w16], ∀ s ∈ [State.reset, mixedPresented []],
      exec i s = .next (after (exec i s)) := by
  refine ⟨by decide, fun i hi s hs => next_after ?_⟩
  revert i s; decide

/-- Six available bytes that agree below G(16) = 3 and differ from there on. -/
theorem witness_DecodesReadOnlyAvailableBytes :
    availableBytes mixed = availableBytes { Block.reset with inLo := 0x7F02AC, inAvail := 6 } ∧
    (∀ i < min (availableBytes mixed) (maxGroups .w16),
      inputByte mixed i = inputByte { Block.reset with inLo := 0x7F02AC, inAvail := 6 } i) ∧
    ∀ i ∈ [vdecU .w16, vdecS .w16], ∀ s ∈ [State.reset, mixedPresented []], exec i s = .next (after (exec i s)) := by
  refine ⟨by decide, by decide, fun i hi s hs => next_after ?_⟩
  revert i s; decide

theorem witness_EmptyInputDecodesToSentinel :
    ({ State.reset with block := { mixed with inAvail := 0 } } : State).block.inAvail = 0 := by decide

theorem witness_TruncationThroughRegisters :
    exec (vencU .w32) (mixedPresented []) = .next (after (exec (vencU .w32) (mixedPresented []))) ∧
    (2 : Word).toNat < (after (exec (vencU .w32) (mixedPresented []))).block.count.toNat :=
  ⟨next_after (by decide), by decide⟩

theorem witness_StepKeepsInvariant : (presented [.access (busWrite 0x00 0x13)]).Inv ∧
    step (presented [.access (busWrite 0x00 0x13)]) =
      .next (after (step (presented [.access (busWrite 0x00 0x13)]))) :=
  ⟨⟨Nat.zero_le 10, 0, by decide, by decide⟩, next_after (by decide)⟩

theorem witness_OutputsRightAfterCommand : ∀ i ∈ [vencU .w64, vencS .w64, vdecU .w64, vdecS .w64],
    exec i (mixedPresented []) = .next (after (exec i (mixedPresented []))) := by
  intro i hi; apply next_after; revert i; decide

/-- ILL set by an illegal word; left by a STATUS write with bit 0 = 0; cleared by one with bit 0 = 1, and by reset. -/
theorem witness_IllChangesOnlyByIllegalWordW1cOrReset :
    ((presented [.access (busWrite 0x00 0x64)]).block.ill = false ∧
      step (presented [.access (busWrite 0x00 0x64)]) =
        .next (after (step (presented [.access (busWrite 0x00 0x64)])))) ∧
    ∀ e ∈ [PortEvent.access (busWrite 0x08 0xFFFFFFFFFFFFFFFE), .access (busWrite 0x08 1), .reset],
      (mixedPresented [e]).block.ill = true ∧
      step (mixedPresented [e]) = .next (after (step (mixedPresented [e]))) := by
  refine ⟨⟨by decide, next_after (by decide)⟩, fun e he => ⟨rfl, next_after ?_⟩⟩
  revert e; decide

/-- Steps that do change OUT_LO and COUNT, and RESULT. -/
theorem witness_OutputsAreLatched :
    (step (mixedPresented [.access (busWrite 0x00 0x12)]) =
        .next (after (step (mixedPresented [.access (busWrite 0x00 0x12)]))) ∧
      (after (step (mixedPresented [.access (busWrite 0x00 0x12)]))).block.outLo ≠ mixed.outLo ∧
      (after (step (mixedPresented [.access (busWrite 0x00 0x12)]))).block.count ≠ mixed.count) ∧
    (step (mixedPresented [.access (busWrite 0x00 0x63)]) =
        .next (after (step (mixedPresented [.access (busWrite 0x00 0x63)]))) ∧
      (after (step (mixedPresented [.access (busWrite 0x00 0x63)]))).block.result ≠ mixed.result) :=
  ⟨⟨next_after (by decide), by decide, by decide⟩, next_after (by decide), by decide⟩

theorem witness_InputsChangeOnlyByTheirOwnWrites : ∀ off ∈ ([0x00, 0x10, 0x18, 0x20, 0x28, 0x78] : List Offset),
    (mixedPresented [.access (busWrite off 0x12)]).pending = [.access (busWrite off 0x12)] ∧
    step (mixedPresented [.access (busWrite off 0x12)]) =
      .next (after (step (mixedPresented [.access (busWrite off 0x12)]))) := by
  intro off ho; refine ⟨rfl, next_after ?_⟩; revert off; decide

theorem witness_OnlyReadsAnswer : ∀ a ∈ [busRead 0x00, busRead 0x78, busWrite 0x00 0x14, busWrite 0x78 1],
    (mixedPresented [.access a]).pending = [.access a] ∧
    step (mixedPresented [.access a]) = .next (after (step (mixedPresented [.access a]))) := by
  intro a ha; refine ⟨rfl, next_after ?_⟩; revert a; decide

end Sys2Proof.Tests
end

namespace Sys2Proof.Proofs

open Sys2Proof.Machine Sys2Proof.Claims

/-! ### The legal words and their commands (R81 to R84) -/

theorem exists_op_code {n : Nat} (h1 : 1 ≤ n) (h6 : n ≤ 6) : ∃ op : Op, op.code.toNat = n := by
  interval_cases n
  exacts [⟨.vencU, rfl⟩, ⟨.vdecU, rfl⟩, ⟨.vencS, rfl⟩, ⟨.vdecS, rfl⟩, ⟨.zzenc, rfl⟩, ⟨.zzdec, rfl⟩]

theorem exists_width_code {n : Nat} (h1 : 1 ≤ n) (h3 : n ≤ 3) : ∃ w : Width, w.code.toNat = n := by
  interval_cases n
  exacts [⟨.w16, rfl⟩, ⟨.w32, rfl⟩, ⟨.w64, rfl⟩]

/-- The words R84 makes legal are the words of the commands, so what a legal word does is what its command does. -/
theorem legalWord_iff_exists_command {c : Word} : LegalWord c ↔ ∃ k : Command, c = k.word := by
  constructor
  · rintro ⟨hop1, hop6, hwidth, hrsvl, hrsvh⟩
    obtain ⟨op, hop⟩ := exists_op_code hop1 hop6
    obtain ⟨w, hw⟩ := exists_width_code (n := c.toNat % 4) (by omega) (by omega)
    refine ⟨⟨op, w⟩, BitVec.eq_of_toNat_eq ?_⟩
    rw [Command.word, BitVec.toNat_ofNat, hop, hw]
    omega
  · rintro ⟨⟨op, w⟩, rfl⟩
    cases op <;> cases w <;> decide

/-- OP stands above the low four bits of a command's word (R81). -/
theorem op_eq_of_word_div {k : Command} {op : Op} (h : k.word.toNat / 16 = op.code.toNat) : k.op = op := by
  obtain ⟨kop, w⟩ := k
  revert h
  cases kop <;> cases w <;> cases op <;> decide

/-! ### What a word written to CMD leaves unchanged (R29, R222) -/

@[simp] theorem performEffect_word (k : Command) (b : Block) : performEffect k.word b = commandEffect k b := by
  simp [performEffect]

theorem performEffect_of_not_legalWord {c : Word} (hc : ¬ LegalWord c) (b : Block) :
    performEffect c b = b.setIll := by
  have hnone : decodeCommand c = none := Option.eq_none_iff_forall_ne_some.2 fun k hk =>
    hc (legalWord_iff_exists_command.2 ⟨k, decodeCommand_eq_some.1 hk⟩)
  rw [performEffect, hnone]

@[simp] theorem performEffect_cmd (c : Word) (b : Block) : (performEffect c b).cmd = b.cmd := by
  by_cases hc : LegalWord c
  · obtain ⟨k, rfl⟩ := legalWord_iff_exists_command.1 hc
    rw [performEffect_word]
    exact (commandEffect_inputs k b).1
  · rw [performEffect_of_not_legalWord hc, Block.setIll_cmd]

theorem commandEffect_encode_frame {k : Command} (h : k.op = .vencU ∨ k.op = .vencS) (b : Block) :
    commandEffect k b = { b with
      outLo := (commandEffect k b).outLo, outHi := (commandEffect k b).outHi, count := (commandEffect k b).count } := by
  obtain ⟨op, w⟩ := k
  obtain rfl | rfl := h <;> rfl

theorem commandEffect_decode_frame {k : Command} (h : k.op = .vdecU ∨ k.op = .vdecS) (b : Block) :
    commandEffect k b = { b with
      count := (commandEffect k b).count, result := (commandEffect k b).result } := by
  obtain ⟨op, w⟩ := k
  obtain rfl | rfl := h <;> rfl

theorem commandEffect_zigzag_frame {k : Command} (h : k.op = .zzenc ∨ k.op = .zzdec) (b : Block) :
    commandEffect k b = { b with result := (commandEffect k b).result } := by
  obtain ⟨op, w⟩ := k
  obtain rfl | rfl := h <;> rfl

/-- A write to CMD always completes: it stores the word and performs it (R203). -/
theorem exec_wr_cmd (c : Word) (s : State) :
    exec (.wr 0x00 c) s = .next (s.onBlock fun b => performEffect c { b with cmd := c }) := by
  rw [exec_wr, execWr_eq (r := .cmd) c s (regAt_eq_some.2 rfl)]
  rfl

/-- Settles O41: a legal word is the word of a command, whose operation OP names, and each kind of command has its
frame; any other word sets ILL. -/
theorem commandWritesOnlyItsOutputs : Obligations.CommandWritesOnlyItsOutputs := by
  intro c s t h
  rw [exec_wr_cmd] at h
  cases h
  refine ⟨rfl, performEffect_cmd c _, fun hc hop => ?_, fun hc hop => ?_, fun hc hop => ?_,
    fun hc => performEffect_of_not_legalWord hc _⟩
  all_goals
    obtain ⟨k, rfl⟩ := legalWord_iff_exists_command.1 hc
    rw [State.onBlock_block, performEffect_word]
  · exact commandEffect_encode_frame (hop.imp op_eq_of_word_div op_eq_of_word_div) _
  · exact commandEffect_decode_frame (hop.imp op_eq_of_word_div op_eq_of_word_div) _
  · exact commandEffect_zigzag_frame (hop.imp op_eq_of_word_div op_eq_of_word_div) _

end Sys2Proof.Proofs

namespace Sys2Proof.Proofs

open Sys2Proof.Machine Sys2Proof.Claims

/-! ### The host's transactions, by the offset (R200 to R202) -/

theorem exists_regAt_of_aligned {off : Offset} (h : off.toNat % 8 = 0) : ∃ r, regAt off = some r :=
  Option.ne_none_iff_exists'.1 fun hnone => regAt_eq_none.1 hnone h

theorem exec_rd_of_regAt {off : Offset} {r : Reg} (h : regAt off = some r) (s : State) :
    exec (.rd off) s = .next (s.answer (s.block.read r)) := by
  rw [exec_rd, execRd, h]

theorem exec_wr_of_regAt {off : Offset} {r : Reg} (h : regAt off = some r) (v : Word) (s : State) :
    exec (.wr off v) s = .next (s.onBlock (writeEffect r v)) := by
  rw [exec_wr, execWr_eq v s h]

theorem exec_rd_misaligned {off : Offset} (h : off.toNat % 8 ≠ 0) (s : State) :
    exec (.rd off) s = .refused (.notAdmitted .misaligned) := by
  rw [exec_rd, execRd, regAt_eq_none.2 h]

theorem exec_wr_misaligned {off : Offset} (h : off.toNat % 8 ≠ 0) (v : Word) (s : State) :
    exec (.wr off v) s = .refused (.notAdmitted .misaligned) := by
  rw [exec_wr, execWr, regAt_eq_none.2 h]

/-! ### Admission of a presented transaction (R52, R200) -/

theorem admitted_access_iff {a : Transaction} :
    (PortEvent.access a).admitted = true ↔ a.size.toNat = 3 ∧ a.off.toNat % 8 = 0 := by
  have hsize : a.size.toNat = 3 ↔ a.size = 3#2 := BitVec.toNat_inj (y := 3#2)
  simp [PortEvent.admitted, isAligned_iff, hsize]

theorem decodeTransaction_of_admitted {a : Transaction} (h : (PortEvent.access a).admitted = true) :
    decodeTransaction a = .ok (if a.we then .wr a.off a.wdata else .rd a.off) := by
  obtain ⟨hsize, halign⟩ : a.size = 3 ∧ isAligned a.off = true := by simpa [PortEvent.admitted] using h
  cases hwe : a.we <;> simp [decodeTransaction, hsize, halign, hwe]

theorem decodeTransaction_of_not_admitted {a : Transaction} (h : ¬ (PortEvent.access a).admitted = true) :
    ∃ why, decodeTransaction a = .error why := by
  by_cases hsize : a.size = 3#2
  · have halign : isAligned a.off = false := by simpa [PortEvent.admitted, hsize] using h
    exact ⟨.misaligned, by simp [decodeTransaction, hsize, halign]⟩
  · exact ⟨.narrow, by simp [decodeTransaction, hsize]⟩

section Step

variable {s : State} {a : Transaction} {rest : List PortEvent} (hp : s.pending = .access a :: rest)
include hp

/-- An admitted transaction is served: its offset names a register to read or to write. -/
theorem step_of_admitted (h : (PortEvent.access a).admitted = true) : ∃ t, step s = .next t := by
  obtain ⟨r, hr⟩ := exists_regAt_of_aligned (admitted_access_iff.1 h).2
  have hstep : step s = exec (if a.we then .wr a.off a.wdata else .rd a.off) (s.accept rest) := by
    simp only [step, hp, decodeTransaction_of_admitted h]
  rw [hstep]
  cases a.we with
  | true => exact ⟨_, exec_wr_of_regAt hr a.wdata _⟩
  | false => exact ⟨_, exec_rd_of_regAt hr _⟩

theorem step_of_not_admitted (h : ¬ (PortEvent.access a).admitted = true) :
    ∃ why, step s = .refused (.notAdmitted why) := by
  obtain ⟨why, hwhy⟩ := decodeTransaction_of_not_admitted h
  exact ⟨why, by simp only [step, hp, hwhy]⟩

end Step

/-- Settles O12: a step on an admitted transaction answers with a next state, so a refusal shows that it was not
admitted. -/
theorem notAdmittedIsRefused : Obligations.NotAdmittedIsRefused := by
  refine ⟨fun s a rest hp => ?_, fun s off v h => ⟨exec_rd_misaligned h s, exec_wr_misaligned h v s⟩⟩
  rw [← admitted_access_iff]
  refine ⟨step_of_not_admitted hp, ?_⟩
  rintro ⟨why, hrefused⟩ hadm
  obtain ⟨t, hnext⟩ := step_of_admitted hp hadm
  cases hnext.symm.trans hrefused

/-! ### What an instruction's effect on the block depends on (R54) -/

/-- Every instruction is a command's, a read or a write. -/
theorem instr_cases (i : Instr) :
    (∃ k : Command, i = k.toInstr) ∨ (∃ off, i = .rd off) ∨ ∃ off v, i = .wr off v := by
  cases i with
  | rd off => exact .inr (.inl ⟨off, rfl⟩)
  | wr off v => exact .inr (.inr ⟨off, v, rfl⟩)
  | vencU16 => exact .inl ⟨⟨.vencU, .w16⟩, rfl⟩
  | vencU32 => exact .inl ⟨⟨.vencU, .w32⟩, rfl⟩
  | vencU64 => exact .inl ⟨⟨.vencU, .w64⟩, rfl⟩
  | vdecU16 => exact .inl ⟨⟨.vdecU, .w16⟩, rfl⟩
  | vdecU32 => exact .inl ⟨⟨.vdecU, .w32⟩, rfl⟩
  | vdecU64 => exact .inl ⟨⟨.vdecU, .w64⟩, rfl⟩
  | vencS16 => exact .inl ⟨⟨.vencS, .w16⟩, rfl⟩
  | vencS32 => exact .inl ⟨⟨.vencS, .w32⟩, rfl⟩
  | vencS64 => exact .inl ⟨⟨.vencS, .w64⟩, rfl⟩
  | vdecS16 => exact .inl ⟨⟨.vdecS, .w16⟩, rfl⟩
  | vdecS32 => exact .inl ⟨⟨.vdecS, .w32⟩, rfl⟩
  | vdecS64 => exact .inl ⟨⟨.vdecS, .w64⟩, rfl⟩
  | zzenc16 => exact .inl ⟨⟨.zzenc, .w16⟩, rfl⟩
  | zzenc32 => exact .inl ⟨⟨.zzenc, .w32⟩, rfl⟩
  | zzenc64 => exact .inl ⟨⟨.zzenc, .w64⟩, rfl⟩
  | zzdec16 => exact .inl ⟨⟨.zzdec, .w16⟩, rfl⟩
  | zzdec32 => exact .inl ⟨⟨.zzdec, .w32⟩, rfl⟩
  | zzdec64 => exact .inl ⟨⟨.zzdec, .w64⟩, rfl⟩

/-- Whether an instruction completes, and the block it leaves, depend on the block alone: the port is not read. -/
theorem exec_next_of_block_eq {i : Instr} {s t u : State} (hb : s.block = t.block) (h : exec i t = .next u) :
    ∃ v, exec i s = .next v ∧ v.block = u.block := by
  obtain ⟨k, rfl⟩ | ⟨off, rfl⟩ | ⟨off, v, rfl⟩ := instr_cases i
  · rw [exec_toInstr] at h
    cases h
    exact ⟨_, exec_toInstr k s, congrArg (commandEffect k) hb⟩
  · obtain ⟨r, hr, rfl⟩ := execRd_next h
    exact ⟨_, exec_rd_of_regAt hr s, hb⟩
  · obtain ⟨r, hr, rfl⟩ := execWr_next h
    exact ⟨_, exec_wr_of_regAt hr v s, congrArg (writeEffect r v) hb⟩

/-- Settles O17: a read changes the answer alone, and the answer is no input of any instruction. -/
theorem readsHaveNoSideEffect : Obligations.ReadsHaveNoSideEffect := by
  intro s t off h
  obtain ⟨r, hr, rfl⟩ := execRd_next h
  exact ⟨rfl, exec_rd_of_regAt hr _, fun i u hu => exec_next_of_block_eq (State.answer_block s _).symm hu⟩

end Sys2Proof.Proofs

namespace Sys2Proof.Proofs

open Sys2Proof.Machine Sys2Proof.Claims

/-! ### The opcode map and the CMD words (R84, R85) -/

/-- The rows of the opcode map are the products of the six operations with the three widths. -/
theorem opcodeMap_eq_flatMap :
    opcodeMap = ([.vencU, .vdecU, .vencS, .vdecS, .zzenc, .zzdec] : List Op).flatMap fun op =>
      ([.w16, .w32, .w64] : List Width).map fun w => (Command.word ⟨op, w⟩, Command.toInstr ⟨op, w⟩) := rfl

theorem mem_opcodeMap_iff {c : Word} {i : Instr} :
    (c, i) ∈ opcodeMap ↔ ∃ k : Command, c = k.word ∧ i = k.toInstr := by
  constructor
  · rw [opcodeMap_eq_flatMap]
    intro h
    obtain ⟨op, -, hrow⟩ := List.mem_flatMap.1 h
    obtain ⟨w, -, heq⟩ := List.mem_map.1 hrow
    cases heq
    exact ⟨⟨op, w⟩, rfl, rfl⟩
  · rintro ⟨⟨op, w⟩, rfl, rfl⟩
    cases op <;> cases w <;> decide

theorem legalWord_iff_exists_mem_opcodeMap {c : Word} : LegalWord c ↔ ∃ i, (c, i) ∈ opcodeMap := by
  simp only [legalWord_iff_exists_command, mem_opcodeMap_iff]
  constructor
  · rintro ⟨k, hk⟩
    exact ⟨k.toInstr, k, hk, rfl⟩
  · rintro ⟨_, k, hk, -⟩
    exact ⟨k, hk⟩

theorem decode_cmd_word (k : Command) : decode (.cmd k.word) = .ok k.toInstr := by
  simp [decode]

theorem decode_cmd_of_not_legalWord {c : Word} (hc : ¬ LegalWord c) :
    decode (.cmd c) = .error .illegalCommand := by
  have hnone : decodeCommand c = none := Option.eq_none_iff_forall_ne_some.2 fun k hk =>
    hc (legalWord_iff_exists_command.2 ⟨k, decodeCommand_eq_some.1 hk⟩)
  simp [decode, hnone]

theorem decode_cmd_eq_ok_iff {c : Word} {i : Instr} : decode (.cmd c) = .ok i ↔ (c, i) ∈ opcodeMap := by
  rw [mem_opcodeMap_iff]
  constructor
  · intro h
    by_cases hc : LegalWord c
    · obtain ⟨k, rfl⟩ := legalWord_iff_exists_command.1 hc
      rw [decode_cmd_word] at h
      cases h
      exact ⟨k, rfl, rfl⟩
    · rw [decode_cmd_of_not_legalWord hc] at h
      cases h
  · rintro ⟨k, rfl, rfl⟩
    exact decode_cmd_word k

/-- Settles O2: the rows of the opcode map are the commands with their words, which are the words that decode. -/
theorem commandWordsDecodeByOpcodeMap : Obligations.CommandWordsDecodeByOpcodeMap := by
  refine fun c => ⟨fun i => decode_cmd_eq_ok_iff, fun hrow => decode_cmd_of_not_legalWord fun hc => ?_⟩
  obtain ⟨i, hi⟩ := legalWord_iff_exists_mem_opcodeMap.1 hc
  exact hrow i hi

/-- Settles O3: a legal word is the word of a command, which has its row in the opcode map. -/
theorem exactlyEighteenLegalWords : Obligations.ExactlyEighteenLegalWords := by
  refine ⟨⟨by decide, rfl⟩, fun c => ⟨?_, fun hc => ?_, decode_cmd_of_not_legalWord⟩⟩
  · rw [legalWord_iff_exists_mem_opcodeMap, List.mem_map]
    simp
  · obtain ⟨i, hi⟩ := legalWord_iff_exists_mem_opcodeMap.1 hc
    exact ⟨i, decode_cmd_eq_ok_iff.2 hi⟩

/-! ### The BUS words (R92) -/

theorem decode_bus_of_transaction {t : BitVec 72} {dir : Bool} {off : Offset} {data : Word}
    (h : transactionOfBus t = { we := dir, off := off, size := 3, wdata := data }) :
    decode (.bus t) =
      if off.toNat % 8 = 0 then .ok (if dir then .wr off data else .rd off)
      else .error (.notAdmitted .misaligned) := by
  by_cases halign : off.toNat % 8 = 0
  · have hadm : (PortEvent.access { we := dir, off := off, size := 3, wdata := data }).admitted = true :=
      admitted_access_iff.2 ⟨rfl, halign⟩
    simp only [decode, h, decodeTransaction_of_admitted hadm, if_pos halign]
  · have hfalse : isAligned off = false := Bool.eq_false_iff.2 (mt isAligned_iff.1 halign)
    simp [decode, h, decodeTransaction, hfalse, halign]

/-- A 72-bit word is the BUS word of the fields its value shows. -/
theorem eq_busWord_of_toNat {t : BitVec 72} {dir : Bool} {off : Offset} {data : Word}
    (h : t.toNat = dir.toNat * 2 ^ 71 + off.toNat * 2 ^ 64 + data.toNat) :
    t = busWord (BitVec.ofBool dir) off data :=
  BitVec.eq_of_toNat_eq (by rw [h, busWord_toNat, BitVec.toNat_ofBool])

/-- Settles O5: the value of the word gives its fields, which the decoder reads and the encoder writes. -/
theorem busWordsDecodeByFields : Obligations.BusWordsDecodeByFields := by
  intro dir off data t ht
  have hfields : t.toNat = dir.toNat * 2 ^ 71 + off.toNat * 2 ^ 64 + data.toNat := by
    cases dir <;> simpa using ht
  refine ⟨decode_bus_of_transaction (transactionOfBus_of_toNat hfields), ?_, ?_⟩
  · rintro rfl
    exact congrArg CodeWord.bus (eq_busWord_of_toNat hfields).symm
  · rintro rfl rfl
    exact congrArg CodeWord.bus (eq_busWord_of_toNat hfields).symm

end Sys2Proof.Proofs

namespace Sys2Proof.Proofs

open Sys2Proof.Machine Sys2Proof.Claims

/-! ### The group loop of an encode (R110) -/

theorem groups_bits_pos (w : Width) : 0 < groups w.bits := by
  cases w <;> decide

theorem groups_bits_le_ten (w : Width) : groups w.bits ≤ 10 := by
  cases w <;> decide

theorem two_pow_bits_lt (w : Width) : 2 ^ w.bits < 128 ^ 10 := by
  cases w <;> decide

/-- The number of groups allowed does not matter: any bound that is enough for the value gives its encoding. -/
theorem encodeVarint_eq_encodeGroups {w : Width} {u : BitVec w.bits} {n : Nat} (hn : u.toNat < 128 ^ (n + 1)) :
    encodeVarint w.bits u = encodeGroups (n + 1) u.toNat := by
  obtain ⟨m, hm⟩ := Nat.exists_eq_add_one_of_ne_zero (groups_bits_pos w).ne'
  have hu : u.toNat < 128 ^ (m + 1) := hm ▸ u.isLt.trans_le (two_pow_bits_le w)
  rw [encodeVarint, hm, encodeGroups_bound_irrelevant hu hn]

/-- Settles O22: ten groups are enough for every value, so the loop with eleven allowed is the one group of the rule
followed by the loop with ten on the rest. -/
theorem encodeVarintIsTheGroupLoop : Obligations.EncodeVarintIsTheGroupLoop := by
  intro w u hu
  have hrest : u / 128 < 2 ^ w.bits := (Nat.div_le_self u 128).trans_lt hu
  have hu10 := hu.trans (two_pow_bits_lt w)
  have hrest10 := hrest.trans (two_pow_bits_lt w)
  rw [encodeVarint_eq_encodeGroups (n := 10), encodeVarint_eq_encodeGroups (n := 9),
    BitVec.toNat_ofNat, BitVec.toNat_ofNat, Nat.mod_eq_of_lt hu, Nat.mod_eq_of_lt hrest, encodeGroups_succ]
  · rwa [BitVec.toNat_ofNat, Nat.mod_eq_of_lt hrest]
  · rw [BitVec.toNat_ofNat, Nat.mod_eq_of_lt hu]
    omega

/-! ### The length and the bytes of an encoding (R111, R112) -/

theorem varintLen_of_div_eq_zero {u : Nat} (h : u / 128 = 0) : varintLen u = 1 := by
  have hsize : Nat.size u ≤ 7 := Nat.size_le.2 (by omega)
  rw [varintLen]
  omega

/-- A group is seven bits of the value. -/
theorem size_eq_size_div_add_seven {u : Nat} (h : u / 128 ≠ 0) : Nat.size u = Nat.size (u / 128) + 7 := by
  have hle (k : Nat) : Nat.size (u / 128) ≤ k ↔ Nat.size u ≤ k + 7 := by
    rw [Nat.size_le, Nat.size_le, pow_add, Nat.div_lt_iff_lt_mul (by decide)]
    norm_num
  have hlow := (hle (Nat.size (u / 128))).1 le_rfl
  have hhigh := (hle (Nat.size u - 7)).2 (by omega)
  have hpos : 0 < Nat.size (u / 128) := Nat.size_pos.2 (Nat.pos_of_ne_zero h)
  omega

theorem varintLen_of_div_ne_zero {u : Nat} (h : u / 128 ≠ 0) : varintLen u = varintLen (u / 128) + 1 := by
  have hpos : 0 < Nat.size (u / 128) := Nat.size_pos.2 (Nat.pos_of_ne_zero h)
  rw [varintLen, varintLen, size_eq_size_div_add_seven h]
  omega

theorem varintLen_pos (u : Nat) : 0 < varintLen u := by
  rw [varintLen]
  omega

theorem varintByte_zero_of_div_eq_zero {u : Nat} (h : u / 128 = 0) : varintByte u 0 = u % 128 := by
  simp [varintByte, varintLen_of_div_eq_zero h]

theorem varintByte_zero_of_div_ne_zero {u : Nat} (h : u / 128 ≠ 0) : varintByte u 0 = u % 128 + 128 := by
  have hpos := varintLen_pos (u / 128)
  simp [varintByte, varintLen_of_div_ne_zero h, hpos]

theorem varintByte_succ_of_div_ne_zero {u : Nat} (h : u / 128 ≠ 0) (i : Nat) :
    varintByte u (i + 1) = varintByte (u / 128) i := by
  rw [varintByte, varintByte, varintLen_of_div_ne_zero h, Nat.mul_succ, Nat.add_comm (7 * i) 7, pow_add,
    ← Nat.div_div_eq_div_mul]
  simp

theorem encodeGroups_map_toNat_of_div_eq_zero (n : Nat) {u : Nat} (h : u / 128 = 0) :
    (encodeGroups (n + 1) u).map BitVec.toNat = (List.range (varintLen u)).map (varintByte u) := by
  have hbyte : u % 128 % 256 = u % 128 := by omega
  simp [encodeGroups_succ, h, varintLen_of_div_eq_zero h, varintByte_zero_of_div_eq_zero h, hbyte]

/-- The loop emits the bytes of R112 when the groups allowed are enough for the value. -/
theorem encodeGroups_map_toNat {n u : Nat} (h : u < 128 ^ (n + 1)) :
    (encodeGroups (n + 1) u).map BitVec.toNat = (List.range (varintLen u)).map (varintByte u) := by
  induction n generalizing u with
  | zero => exact encodeGroups_map_toNat_of_div_eq_zero 0 (by omega)
  | succ n ih =>
    by_cases hlast : u / 128 = 0
    · exact encodeGroups_map_toNat_of_div_eq_zero (n + 1) hlast
    · have hrest : u / 128 < 128 ^ (n + 1) := Nat.div_lt_of_lt_mul (by rwa [← pow_succ'])
      have hbyte : (u % 128 + 128) % 2 ^ 8 = u % 128 + 128 := by omega
      rw [encodeGroups_succ, if_neg hlast, List.map_cons, ih hrest, varintLen_of_div_ne_zero hlast,
        List.range_succ_eq_map, List.map_cons, List.map_map, varintByte_zero_of_div_ne_zero hlast,
        BitVec.toNat_ofNat, hbyte]
      exact congrArg _ (List.map_congr_left fun i _ => (varintByte_succ_of_div_ne_zero hlast i).symm)

theorem encodeVarint_map_toNat {w : Width} (u : BitVec w.bits) :
    (encodeVarint w.bits u).map BitVec.toNat = (List.range (varintLen u.toNat)).map (varintByte u.toNat) := by
  have hu : u.toNat < 128 ^ (9 + 1) := u.isLt.trans (two_pow_bits_lt w)
  rw [encodeVarint_eq_encodeGroups hu, encodeGroups_map_toNat hu]

theorem encodeVarint_length {w : Width} (u : BitVec w.bits) :
    (encodeVarint w.bits u).length = varintLen u.toNat := by
  simpa using congrArg List.length (encodeVarint_map_toNat u)

/-! ### The outputs of an encode (R58, R90) -/

theorem ofDigits_bytes_digit (s : List Byte) (k : Nat) :
    Nat.ofDigits 256 (s.map BitVec.toNat) / 256 ^ k % 256 = (s.map BitVec.toNat).getD k 0 :=
  ofDigits_digit (List.forall_mem_map.2 fun b _ => b.isLt) k

/-- A packed sequence that fits the output window stands in it from byte 0 on, with zeros after it. -/
theorem outputByte_pack {s : List Byte} (hs : s.length ≤ 10) (b : Block) (k : Nat) :
    outputByte (b.pack s) k = (s.map BitVec.toNat).getD k 0 := by
  rw [outputByte, Block.pack_outLo, Block.pack_outHi, packBytes_toNat (by simp; omega),
    packBytes_toNat (by simp; omega), ofDigits_bytes_digit, ofDigits_bytes_digit]
  split
  case isTrue hlo => simp [List.getD_eq_getElem?_getD, hlo]
  case isFalse hhi =>
    have hk : 8 + (k - 8) = k := by omega
    simp [List.getD_eq_getElem?_getD, List.getElem?_drop, hk]

/-- A command that packs the encoding of `code` completes in every state as an encode of the value of `code`. -/
theorem encodes_toInstr {k : Command} {w : Width} {code : Block → BitVec w.bits} {value : Block → Nat}
    (heffect : ∀ b, commandEffect k b = b.pack (encodeVarint w.bits (code b)))
    (hvalue : ∀ b, (code b).toNat = value b) : Encodes k.toInstr value := by
  intro s
  have hlen : (encodeVarint w.bits (code s.block)).length ≤ 10 :=
    (encodeVarint_length_le _ _).trans (groups_bits_le_ten w)
  refine ⟨_, exec_toInstr k s, ?_, fun j _ => ?_, ?_⟩ <;>
    rw [State.onBlock_block, heffect]
  · rw [Block.pack_count, BitVec.toNat_ofNat, ← hvalue, ← encodeVarint_length]
    omega
  · rw [outputByte_pack hlen, encodeVarint_map_toNat, hvalue]
    split
    case isTrue hj => simp [hj]
    case isFalse hj => simp [hj]
  · rw [State.onBlock, heffect]
    rfl

theorem operandOf_toNat (w : Width) (b : Block) : (b.operandOf w.bits).toNat = uintOperand w b :=
  BitVec.toNat_setWidth w.bits b.operand

theorem encodes_vencU (w : Width) : Encodes (Command.toInstr ⟨.vencU, w⟩) (uintOperand w) :=
  encodes_toInstr (fun _ => rfl) (operandOf_toNat w)

/-- Settles O35: each word is that of an unsigned encode, which packs the encoding of its operand. -/
theorem unsignedEncodeResult : Obligations.UnsignedEncodeResult :=
  ⟨decode_cmd_word ⟨.vencU, .w16⟩, encodes_vencU .w16, decode_cmd_word ⟨.vencU, .w32⟩, encodes_vencU .w32,
    decode_cmd_word ⟨.vencU, .w64⟩, encodes_vencU .w64⟩

/-! ### The group loop of a decode (R113, R114) -/

theorem continues_iff {b : Byte} : b.getLsbD 7 = true ↔ 128 ≤ b.toNat := by
  rw [BitVec.getLsbD, Nat.testBit_eq_decide_div_mod_eq, decide_eq_true_iff]
  omega

theorem groupSum_succ (byte : Nat → Nat) (n : Nat) :
    groupSum byte (n + 1) = byte 0 % 128 + 128 * groupSum (fun i => byte (i + 1)) n := by
  rw [groupSum, Finset.sum_range_succ', groupSum, Finset.mul_sum, Nat.add_comm]
  congr 1
  · simp
  · refine Finset.sum_congr rfl fun i _ => ?_
    ring

/-- The loop stops at the first byte without the continuation flag, with the groups up to it added. -/
theorem decodeGroups_of_terminated {n i acc k : Nat} {seq : List Byte} (hn : k < n) (hlen : k < seq.length)
    (hlast : (seq.getD k 0).toNat < 128) (hmore : ∀ j < k, 128 ≤ (seq.getD j 0).toNat) :
    decodeGroups n i acc seq =
      some (i + k + 1, acc + groupSum (fun j => (seq.getD j 0).toNat) (k + 1) * 2 ^ (7 * i)) := by
  induction k generalizing n i acc seq with
  | zero =>
    obtain ⟨n, rfl⟩ := Nat.exists_eq_add_of_lt hn
    obtain ⟨b, seq, rfl⟩ := List.exists_cons_of_length_pos hlen
    have hstop : ¬ b.getLsbD 7 = true := mt continues_iff.1 (by simpa using hlast)
    rw [Nat.zero_add, decodeGroups_cons, if_neg hstop, groupSum_succ, toNat_extract_byte]
    simp [groupSum]
  | succ k ih =>
    obtain ⟨n, rfl⟩ := Nat.exists_eq_add_of_lt (Nat.zero_lt_of_lt hn)
    obtain ⟨b, seq, rfl⟩ := List.exists_cons_of_length_pos (Nat.zero_lt_of_lt hlen)
    have hgo : b.getLsbD 7 = true := continues_iff.2 (by simpa using hmore 0 k.succ_pos)
    rw [Nat.zero_add, decodeGroups_cons, if_pos hgo, toNat_extract_byte, groupSum_succ,
      ih (by omega) (by simpa using hlen) (by simpa using hlast)
        fun j hj => by simpa using hmore (j + 1) (by omega)]
    simp only [List.getD_cons_zero, List.getD_cons_succ, Option.some.injEq, Prod.mk.injEq]
    constructor
    · omega
    · ring

theorem decodeGroups_of_unterminated {n i acc : Nat} {seq : List Byte}
    (hmore : ∀ k < min seq.length n, 128 ≤ (seq.getD k 0).toNat) : decodeGroups n i acc seq = none := by
  induction n generalizing i acc seq with
  | zero => rfl
  | succ n ih =>
    cases seq with
    | nil => rfl
    | cons b seq =>
      have hgo : b.getLsbD 7 = true := continues_iff.2 (by simpa using hmore 0 (by simp))
      rw [decodeGroups_cons, if_pos hgo]
      exact ih fun k hk => by simpa using hmore (k + 1) (by simp; omega)

theorem groups_bits_eq_maxGroups (w : Width) : groups w.bits = maxGroups w := by
  cases w <;> rfl

theorem decodesTo_decodeVarint (w : Width) (seq : List Byte) :
    DecodesTo w seq.length (fun i => (seq.getD i 0).toNat)
      (decodeVarint w.bits seq).1 (decodeVarint w.bits seq).2.toNat := by
  rw [DecodesTo, decodeVarint, groups_bits_eq_maxGroups]
  constructor
  · intro k hk hlast hmore
    obtain ⟨hlen, hn⟩ := lt_min_iff.1 hk
    rw [decodeGroups_of_terminated hn hlen hlast hmore]
    simp
  · intro hmore
    rw [decodeGroups_of_unterminated hmore]
    simp

/-! ### The inputs of a decode (R58, R88) -/

theorem inByte_toNat (b : Block) (i : Nat) : (b.inByte i).toNat = inputByte b i := by
  rw [Block.inByte, inputByte]
  split <;> exact wordByte_toNat _ _

theorem inputSeq_length (b : Block) : b.inputSeq.length = availableBytes b := by
  simp [Block.inputSeq, Block.available, availableBytes, Config.byteWindow]

theorem inputSeq_getD_toNat {b : Block} {i : Nat} (hi : i < availableBytes b) :
    (b.inputSeq.getD i 0).toNat = inputByte b i := by
  rw [← inputSeq_length] at hi
  rw [List.getD_eq_getElem _ _ hi]
  simp [Block.inputSeq, inByte_toNat]

theorem groupSum_congr {byte byte' : Nat → Nat} {n : Nat} (h : ∀ i < n, byte i = byte' i) :
    groupSum byte n = groupSum byte' n :=
  Finset.sum_congr rfl fun i hi => by rw [h i (Finset.mem_range.1 hi)]

/-- A decode depends on the available bytes alone. -/
theorem decodesTo_congr {w : Width} {A consumed value : Nat} {byte byte' : Nat → Nat}
    (h : ∀ i < A, byte i = byte' i) (hd : DecodesTo w A byte consumed value) :
    DecodesTo w A byte' consumed value := by
  obtain ⟨hterm, hnone⟩ := hd
  constructor
  · intro k hk hlast hmore
    have hkA : k < A := (lt_min_iff.1 hk).1
    rw [← groupSum_congr fun i hi => h i (by omega)]
    exact hterm k hk (h k hkA ▸ hlast) fun j hj => h j (hj.trans hkA) ▸ hmore j hj
  · exact fun hmore => hnone fun k hk => h k (lt_min_iff.1 hk).1 ▸ hmore k hk

/-- A command that latches what its width's decode gives, the value as `widen` shows it, completes in every state as
a decode. -/
theorem decodes_toInstr {k : Command} {w : Width} {widen : BitVec w.bits → Word} {shows : Nat → Word → Prop}
    (heffect : ∀ b, commandEffect k b =
      b.setDecoded (decodeVarint w.bits b.inputSeq).1 (widen (decodeVarint w.bits b.inputSeq).2))
    (hshows : ∀ v, shows v.toNat (widen v)) : Decodes k.toInstr w shows := by
  intro s
  refine ⟨_, (decodeVarint w.bits s.block.inputSeq).2.toNat, exec_toInstr k s, ?_, ?_, ?_⟩ <;>
    rw [State.onBlock_block, heffect]
  · have hcount : (decodeVarint w.bits s.block.inputSeq).1 ≤ 10 :=
      (decodeVarint_consumed_le _ _).trans (groups_bits_le_ten w)
    rw [Block.setDecoded_count, BitVec.toNat_ofNat, Nat.mod_eq_of_lt (by omega), ← inputSeq_length]
    exact decodesTo_congr (fun i hi => inputSeq_getD_toNat (inputSeq_length s.block ▸ hi))
      (decodesTo_decodeVarint w s.block.inputSeq)
  · exact hshows _
  · rw [State.onBlock, heffect]
    rfl

theorem zext64_toNat {w : Width} (v : BitVec w.bits) : (zext64 v).toNat = v.toNat :=
  BitVec.toNat_setWidth_of_le (by cases w <;> decide)

theorem decodes_vdecU (w : Width) : Decodes (Command.toInstr ⟨.vdecU, w⟩) w (fun u r => r.toNat = u) :=
  decodes_toInstr (fun _ => rfl) zext64_toNat

/-- Settles O36: each word is that of an unsigned decode, which latches what its width's decode gives. -/
theorem unsignedDecodeResult : Obligations.UnsignedDecodeResult :=
  ⟨decode_cmd_word ⟨.vdecU, .w16⟩, decodes_vdecU .w16, decode_cmd_word ⟨.vdecU, .w32⟩, decodes_vdecU .w32,
    decode_cmd_word ⟨.vdecU, .w64⟩, decodes_vdecU .w64⟩

end Sys2Proof.Proofs

namespace Sys2Proof.Proofs

open Sys2Proof.Machine Sys2Proof.Claims

/-! ### The zigzag functions in integer arithmetic (R140 to R143) -/

/-- The arithmetic shift by W-1 spreads the sign over every bit (R145). -/
theorem sshiftRight_pred_eq {W : Nat} (p : BitVec W) :
    p.sshiftRight (W - 1) = if p.msb then BitVec.allOnes W else 0#W := by
  ext i hi
  have hspread : (p.sshiftRight (W - 1))[i] = p.msb := by
    rw [BitVec.getElem_sshiftRight]
    split
    case isTrue hlast =>
      obtain rfl : i = 0 := by omega
      rw [BitVec.msb_eq_getLsbD_last]
      exact (BitVec.getLsbD_eq_getElem hlast).symm
    case isFalse => rfl
  rw [hspread]
  cases p.msb <;> simp

/-- The code is twice a non-negative value, and the complement of twice a negative one. -/
theorem zigzagEncode_eq {W : Nat} (p : BitVec W) :
    zigzagEncode W p = if p.msb then ~~~(p <<< 1) else p <<< 1 := by
  rw [zigzagEncode, sshiftRight_pred_eq]
  cases p.msb
  · simp
  · simp [BitVec.xor_allOnes]

/-- The value is half of an even code, and the complement of half of an odd one. -/
theorem zigzagDecode_eq {W : Nat} (q : BitVec W) :
    zigzagDecode W q = if q.getLsbD 0 then ~~~(q >>> 1) else q >>> 1 := by
  have hone : BitVec.setWidth W 1#1 = 1#W := BitVec.eq_of_toNat_eq (by simp)
  rw [zigzagDecode, BitVec.ofNat_eq_ofNat, BitVec.and_one_eq_setWidth_ofBool_getLsbD]
  cases q.getLsbD 0
  · simp
  · simp [hone, BitVec.neg_one_eq_allOnes, BitVec.xor_allOnes]

/-- Doubling drops the sign bit alone. -/
theorem toNat_shiftLeft_one {W : Nat} (p : BitVec W) :
    (p <<< 1).toNat = if p.msb then 2 * p.toNat - 2 ^ W else 2 * p.toNat := by
  have hp := p.isLt
  rw [BitVec.toNat_shiftLeft, Nat.shiftLeft_eq, Nat.mul_comm, pow_one]
  cases hmsb : p.msb
  · have hlow := BitVec.msb_eq_false_iff_two_mul_lt.1 hmsb
    simp [Nat.mod_eq_of_lt hlow]
  · have hhigh := BitVec.msb_eq_true_iff_two_mul_ge.1 hmsb
    simp [Nat.mod_eq_sub_mod hhigh, Nat.mod_eq_of_lt (by omega : 2 * p.toNat - 2 ^ W < 2 ^ W)]

theorem zigzagEncode_toNat {W : Nat} (p : BitVec W) :
    ((zigzagEncode W p).toNat : Int) = zigzagCode p.toInt := by
  have hp := p.isLt
  have hshift := toNat_shiftLeft_one p
  rw [zigzagEncode_eq, zigzagCode, BitVec.toInt_eq_msb_cond]
  cases hmsb : p.msb
  · simp only [hmsb, Bool.false_eq_true, if_false] at hshift ⊢
    omega
  · have hhigh := BitVec.msb_eq_true_iff_two_mul_ge.1 hmsb
    simp only [hmsb, if_true, BitVec.toNat_not] at hshift ⊢
    omega

theorem zigzagDecode_toInt {W : Nat} (q : BitVec W) :
    (zigzagDecode W q).toInt = zigzagValue (q.toNat : Int) := by
  have hq := q.isLt
  have hhalf : (q >>> 1).toNat = q.toNat / 2 := by
    rw [BitVec.toNat_ushiftRight, Nat.shiftRight_eq_div_pow, pow_one]
  have hparity : q.getLsbD 0 = decide (q.toNat % 2 = 1) := by
    simp [BitVec.getLsbD, Nat.testBit_eq_decide_div_mod_eq]
  rw [zigzagDecode_eq, zigzagValue, hparity]
  by_cases hodd : q.toNat % 2 = 1
  · simp only [hodd, decide_true, if_true]
    rw [BitVec.toInt_eq_toNat_cond, BitVec.toNat_not, hhalf]
    omega
  · simp only [hodd, decide_false, Bool.false_eq_true, if_false]
    rw [BitVec.toInt_eq_toNat_cond, hhalf]
    omega

/-! ### The zigzag commands (R146 to R151) -/

/-- A command that latches one value in RESULT completes in every state and changes nothing else. -/
theorem maps_toInstr {k : Command} {value : Block → Word} {shows : Block → Word → Prop}
    (heffect : ∀ b, commandEffect k b = b.setResult (value b)) (hshows : ∀ b, shows b (value b)) :
    Maps k.toInstr shows := by
  intro s
  refine ⟨_, exec_toInstr k s, ?_, ?_⟩
  · rw [State.onBlock_block, heffect]
    exact hshows s.block
  · rw [State.onBlock, heffect]
    rfl

theorem operandOf_toInt (w : Width) (b : Block) : (b.operandOf w.bits).toInt = sintOperand w b := by
  have hmsb : (b.operandOf w.bits).msb = b.operand.getLsbD (w.bits - 1) := by
    have hlast : w.bits - 1 < w.bits := by cases w <;> decide
    simp [BitVec.msb_eq_getLsbD_last, Block.operandOf, hlast]
  rw [BitVec.toInt_eq_msb_cond, operandOf_toNat, hmsb, sintOperand]
  split <;> simp

theorem sext64_toInt {w : Width} (v : BitVec w.bits) : (sext64 v).toInt = v.toInt :=
  BitVec.toInt_signExtend_of_le (by cases w <;> decide)

theorem maps_zzenc (w : Width) :
    Maps (Command.toInstr ⟨.zzenc, w⟩) (fun b r => (r.toNat : Int) = zigzagCode (sintOperand w b)) :=
  maps_toInstr (fun _ => rfl) fun b => by
    rw [zext64_toNat, zigzagEncode_toNat, operandOf_toInt]

theorem maps_zzdec (w : Width) :
    Maps (Command.toInstr ⟨.zzdec, w⟩) (fun b r => r.toInt = zigzagValue (uintOperand w b)) :=
  maps_toInstr (fun _ => rfl) fun b => by
    rw [sext64_toInt, zigzagDecode_toInt, operandOf_toNat]

/-- Settles O39: each word is that of a zigzag encode, which latches the code of its signed operand. -/
theorem zigzagEncodeResult : Obligations.ZigzagEncodeResult :=
  ⟨decode_cmd_word ⟨.zzenc, .w16⟩, maps_zzenc .w16, decode_cmd_word ⟨.zzenc, .w32⟩, maps_zzenc .w32,
    decode_cmd_word ⟨.zzenc, .w64⟩, maps_zzenc .w64⟩

/-- Settles O40: each word is that of a zigzag decode, which latches the signed value of its operand's code. -/
theorem zigzagDecodeResult : Obligations.ZigzagDecodeResult :=
  ⟨decode_cmd_word ⟨.zzdec, .w16⟩, maps_zzdec .w16, decode_cmd_word ⟨.zzdec, .w32⟩, maps_zzdec .w32,
    decode_cmd_word ⟨.zzdec, .w64⟩, maps_zzdec .w64⟩

end Sys2Proof.Proofs

namespace Sys2Proof.Proofs

open Sys2Proof.Machine Sys2Proof.Claims

/-! ### The signed varint commands (R172 to R177) -/

/-- A signed encode is an unsigned one of the zigzag code of its operand (R170). -/
theorem encodes_vencS (w : Width) :
    Encodes (Command.toInstr ⟨.vencS, w⟩) (fun b => (zigzagCode (sintOperand w b)).toNat) :=
  encodes_toInstr (code := fun b => zigzagEncode w.bits (b.operandOf w.bits)) (fun _ => rfl) fun b => by
    rw [← operandOf_toInt, ← zigzagEncode_toNat, Int.toNat_natCast]

/-- A signed decode is an unsigned one whose value RESULT shows through the zigzag decode (R171). -/
theorem decodes_vdecS (w : Width) :
    Decodes (Command.toInstr ⟨.vdecS, w⟩) w (fun u r => r.toInt = zigzagValue u) :=
  decodes_toInstr (widen := fun v => sext64 (zigzagDecode w.bits v)) (fun _ => rfl) fun v => by
    rw [sext64_toInt, zigzagDecode_toInt]

/-- Settles O37: each word is that of a signed encode, which packs the encoding of the zigzag code of its operand. -/
theorem signedEncodeResult : Obligations.SignedEncodeResult :=
  ⟨decode_cmd_word ⟨.vencS, .w16⟩, encodes_vencS .w16, decode_cmd_word ⟨.vencS, .w32⟩, encodes_vencS .w32,
    decode_cmd_word ⟨.vencS, .w64⟩, encodes_vencS .w64⟩

/-- Settles O38: each word is that of a signed decode, which latches the signed value of the code it decodes. -/
theorem signedDecodeResult : Obligations.SignedDecodeResult :=
  ⟨decode_cmd_word ⟨.vdecS, .w16⟩, decodes_vdecS .w16, decode_cmd_word ⟨.vdecS, .w32⟩, decodes_vdecS .w32,
    decode_cmd_word ⟨.vdecS, .w64⟩, decodes_vdecS .w64⟩

end Sys2Proof.Proofs

namespace Sys2Proof.Proofs

open Sys2Proof.Machine Sys2Proof.Claims

/-! ### The pseudocode of perform(c) (R203) -/

/-- The fields of a command's word pick the command's own operation and width in the pseudocode. -/
theorem performR203_word (k : Command) (b : Block) : performR203 k.word b = commandEffect k b := by
  have hlegal : LegalWord k.word := legalWord_iff_exists_command.2 ⟨k, rfl⟩
  rw [performR203, if_pos hlegal]
  obtain ⟨op, w⟩ := k
  cases op <;> cases w <;> rfl

theorem performEffect_eq_performR203 (c : Word) (b : Block) : performEffect c b = performR203 c b := by
  by_cases hc : LegalWord c
  · obtain ⟨k, rfl⟩ := legalWord_iff_exists_command.1 hc
    rw [performEffect_word, performR203_word]
  · rw [performEffect_of_not_legalWord hc, performR203, if_neg hc]

/-- Settles O10: the write completes with the effect of its word, which is what the pseudocode says. -/
theorem commandWriteFollowsPerform : Obligations.CommandWriteFollowsPerform := by
  intro c s
  rw [exec_wr_cmd, State.onBlock, performEffect_eq_performR203]

/-! ### RD by offset (R201) -/

theorem regAt_of_toNat {off : Offset} {n : Nat} {r : Reg} (h : off.toNat = n)
    (hr : regAt (BitVec.ofNat 7 n) = some r) : regAt off = some r := by
  rwa [← h, BitVec.ofNat_toNat, BitVec.setWidth_eq] at hr

theorem exec_rd_of_toNat {off : Offset} {n : Nat} {r : Reg} (h : off.toNat = n)
    (hr : regAt (BitVec.ofNat 7 n) = some r) (s : State) :
    exec (.rd off) s = .next { s with rdata := some (s.block.read r) } :=
  exec_rd_of_regAt (regAt_of_toNat h hr) s

theorem status_eq (b : Block) : b.status = if b.ill then 1 else 0 := by
  rw [Block.status]
  cases b.ill <;> rfl

theorem zext64_eq_ofNat_toNat {n : Nat} (v : BitVec n) : zext64 v = BitVec.ofNat 64 v.toNat :=
  (BitVec.ofNat_toNat 64 v).symm

theorem step_narrow {s : State} {a : Transaction} {rest : List PortEvent} (hp : s.pending = .access a :: rest)
    (hsize : a.size.toNat ≠ 3) : ∃ why, step s = .refused (.notAdmitted why) :=
  step_of_not_admitted hp fun hadm => hsize (admitted_access_iff.1 hadm).1

/-- Settles O15: the window map gives the register at each offset, and the read answers with its value. -/
theorem readReturnsRegister : Obligations.ReadReturnsRegister := by
  intro s off
  refine ⟨fun h => exec_rd_of_toNat (r := .cmd) h rfl s, fun h => ?status,
    fun h => exec_rd_of_toNat (r := .operand) h rfl s, fun h => exec_rd_of_toNat (r := .inLo) h rfl s,
    fun h => exec_rd_of_toNat (r := .inHi) h rfl s, fun h => exec_rd_of_toNat (r := .inAvail) h rfl s,
    fun h => exec_rd_of_toNat (r := .outLo) h rfl s, fun h => ?outHi, fun h => ?count,
    fun h => exec_rd_of_toNat (r := .result) h rfl s,
    fun h halign => exec_rd_of_regAt (r := .reserved) (regAt_eq_some.2 ⟨h, halign⟩) s,
    fun h => exec_rd_misaligned h s, fun a rest hp _ hsize => step_narrow hp hsize⟩
  case status => rw [exec_rd_of_toNat (r := .status) h rfl, Block.read, status_eq]
  case outHi => rw [exec_rd_of_toNat (r := .outHi) h rfl, Block.read, zext64_eq_ofNat_toNat]
  case count => rw [exec_rd_of_toNat (r := .count) h rfl, Block.read, zext64_eq_ofNat_toNat]

/-! ### WR by offset (R202) -/

theorem exec_wr_of_toNat {off : Offset} {n : Nat} {r : Reg} (h : off.toNat = n)
    (hr : regAt (BitVec.ofNat 7 n) = some r) (v : Word) (s : State) :
    exec (.wr off v) s = .next { s with block := writeEffect r v s.block } :=
  exec_wr_of_regAt (regAt_of_toNat h hr) v s

theorem not_getLsbD_zero {n : Nat} (v : BitVec n) : (!v.getLsbD 0) = (v.toNat % 2 == 0) := by
  rw [BitVec.getLsbD, Nat.testBit_zero]
  obtain h | h := Nat.mod_two_eq_zero_or_one v.toNat <;> rw [h] <;> rfl

/-- The registers from 0x30 on are read-only or reserved. -/
theorem writeEffect_of_readOnly {off : Offset} {r : Reg} (hr : regAt off = some r) (h : 0x30 ≤ off.toNat)
    (v : Word) (b : Block) : writeEffect r v b = b := by
  have hoff := regAt_eq_some.1 hr
  cases r with
  | cmd | status | operand | inLo | inHi | inAvail =>
    subst hoff
    exact absurd h (by decide)
  | outLo | outHi | count | result | reserved => rfl

/-- Settles O16: the window map gives the register at each offset, and the write has that register's effect. -/
theorem writeEffectByOffset : Obligations.WriteEffectByOffset := by
  intro s off v
  refine ⟨fun h => ?cmd, fun h => ?status,
    fun h => exec_wr_of_toNat (r := .operand) h rfl v s, fun h => exec_wr_of_toNat (r := .inLo) h rfl v s,
    fun h => exec_wr_of_toNat (r := .inHi) h rfl v s, fun h => exec_wr_of_toNat (r := .inAvail) h rfl v s,
    fun h halign => ?readOnly, fun h => exec_wr_misaligned h v s,
    fun a rest hp _ hsize => step_narrow hp hsize⟩
  case cmd =>
    rw [exec_wr_of_toNat (r := .cmd) h rfl, perform_eq]
    rfl
  case status =>
    rw [exec_wr_of_toNat (r := .status) h rfl, writeEffect, Block.writeStatus_eq, not_getLsbD_zero]
  case readOnly =>
    obtain ⟨r, hr⟩ := exists_regAt_of_aligned halign
    rw [exec_wr_of_regAt hr, State.onBlock, writeEffect_of_readOnly hr h]

end Sys2Proof.Proofs

namespace Sys2Proof.Proofs

open Sys2Proof.Machine Sys2Proof.Claims

/-! ### An illegal word written to CMD (R222) -/

/-- Settles O11: the write completes with the effect of its word on the block that holds it in CMD, and an illegal
word's effect is to set ILL. -/
theorem illegalWordSetsIllOnly : Obligations.IllegalWordSetsIllOnly := by
  intro c s hc
  rw [exec_wr_cmd, State.onBlock, performEffect_of_not_legalWord hc, Block.setIll]

end Sys2Proof.Proofs

namespace Sys2Proof.Proofs

open Sys2Proof.Machine Sys2Proof.Claims

/-! ### Reset (R250, R252) -/

theorem step_reset {s : State} {rest : List PortEvent} (hp : s.pending = .reset :: rest) :
    step s = .next (s.accept rest).resetBlock := by
  rw [step, hp]

/-- Settles O19: a reset step answers with the block of R250, whose registers are all 0. -/
theorem resetZeroesEveryRegister : Obligations.ResetZeroesEveryRegister :=
  ⟨_, rfl, rfl, fun s rest hp => ⟨(s.accept rest).resetBlock, step_reset hp, State.resetBlock_block _⟩⟩

/-! ### The output registers are latched (R255) -/

/-- The view `f` of a block depends on its output registers alone: OUT_LO, OUT_HI, COUNT and RESULT (R25 to R28). -/
def ReadsOutputsOnly {β : Type} (f : Block → β) : Prop :=
  ∀ b c : Block, b.outLo = c.outLo → b.outHi = c.outHi → b.count = c.count → b.result = c.result → f b = f c

/-- What stands above the low four bits of a command's word is its OP alone (R81). -/
theorem word_toNat_div_sixteen (k : Command) : k.word.toNat / 16 = k.op.code.toNat := by
  obtain ⟨op, w⟩ := k
  cases op <;> cases w <;> rfl

section Latch

variable {β : Type} {f : Block → β} (hf : ReadsOutputsOnly f)
include hf

/-- A write to CMD changes an output only as the command of its word does: an illegal word sets ILL alone. -/
theorem exists_command_of_performEffect_ne {c : Word} {b : Block} (h : f (performEffect c b) ≠ f b) :
    ∃ k : Command, c = k.word ∧ f (commandEffect k b) ≠ f b := by
  by_cases hc : LegalWord c
  · obtain ⟨k, rfl⟩ := legalWord_iff_exists_command.1 hc
    exact ⟨k, rfl, performEffect_word k b ▸ h⟩
  · rw [performEffect_of_not_legalWord hc] at h
    exact h.elim (hf _ b rfl rfl rfl rfl)

/-- Of the registers of the window, only a write to CMD changes an output: the output registers are read-only, and
the others hold no output (R55). -/
theorem exists_command_of_writeEffect_ne {r : Reg} {v : Word} {b : Block} (h : f (writeEffect r v b) ≠ f b) :
    r = .cmd ∧ ∃ (k : Command) (b' : Block), v = k.word ∧ f (commandEffect k b') ≠ f b' := by
  cases r with
  | cmd =>
    have hstored : f { b with cmd := v } = f b := hf _ _ rfl rfl rfl rfl
    rw [writeEffect, ← hstored] at h
    obtain ⟨k, hv, hk⟩ := exists_command_of_performEffect_ne hf h
    exact ⟨rfl, k, _, hv, hk⟩
  | status =>
    rw [writeEffect, Block.writeStatus_eq] at h
    exact h.elim (hf _ b rfl rfl rfl rfl)
  | operand | inLo | inHi | inAvail => exact h.elim (hf _ b rfl rfl rfl rfl)
  | outLo | outHi | count | result | reserved => exact h.elim rfl

/-- If only the operations in `ops` change an output, then a step that changes it and is no reset serves a write to
CMD of a command in `ops`. -/
theorem commandWriteOf_of_step_ne {ops : List Nat}
    (hops : ∀ (op : Op) (w : Width) (b : Block), op.code.toNat ∉ ops → f (commandEffect ⟨op, w⟩ b) = f b)
    {s t : State} {e : PortEvent} {rest : List PortEvent} (hp : s.pending = e :: rest) (hstep : step s = .next t)
    (hreset : e ≠ .reset) (h : f t.block ≠ f s.block) : ∃ a, e = .access a ∧ CommandWriteOf ops a := by
  obtain ⟨e', rest', hp', hcase⟩ := step_cases hstep
  obtain ⟨rfl, rfl⟩ := List.cons.inj (hp.symm.trans hp')
  obtain ⟨he, -⟩ | ⟨a, r, -, -, -, -, rfl⟩ | ⟨a, r, rfl, -, hr, hwe, rfl⟩ := hcase
  · exact absurd he hreset
  · exact absurd rfl h
  · obtain ⟨rfl, k, b, hword, hk⟩ := exists_command_of_writeEffect_ne hf h
    have hoff : a.off = 0x00 := regAt_eq_some.1 hr
    refine ⟨a, rfl, hwe, congrArg BitVec.toNat hoff, legalWord_iff_exists_command.2 ⟨k, hword⟩, ?_⟩
    rw [hword, word_toNat_div_sixteen k]
    exact not_imp_comm.1 (hops k.op k.width b) hk

end Latch

/-- Only an encode writes OUT_LO and OUT_HI (R29). -/
theorem commandEffect_outBytes_of_not_encode (op : Op) (w : Width) (b : Block) (h : op.code.toNat ∉ [1, 3]) :
    (commandEffect ⟨op, w⟩ b).outLo = b.outLo ∧ (commandEffect ⟨op, w⟩ b).outHi = b.outHi := by
  cases op with
  | vencU | vencS => exact absurd (by decide) h
  | vdecU | vdecS | zzenc | zzdec => exact ⟨rfl, rfl⟩

/-- Only an encode or a decode writes COUNT (R29). -/
theorem commandEffect_count_of_zigzag (op : Op) (w : Width) (b : Block) (h : op.code.toNat ∉ [1, 2, 3, 4]) :
    (commandEffect ⟨op, w⟩ b).count = b.count := by
  cases op with
  | vencU | vdecU | vencS | vdecS => exact absurd (by decide) h
  | zzenc | zzdec => rfl

/-- Only a decode or a zigzag command writes RESULT (R29). -/
theorem commandEffect_result_of_encode (op : Op) (w : Width) (b : Block) (h : op.code.toNat ∉ [2, 4, 5, 6]) :
    (commandEffect ⟨op, w⟩ b).result = b.result := by
  cases op with
  | vdecU | vdecS | zzenc | zzdec => exact absurd (by decide) h
  | vencU | vencS => rfl

/-- Settles O53: each output register is a view of the outputs that only the commands R29 names change. -/
theorem outputsAreLatched : Obligations.OutputsAreLatched := by
  intro s t e rest hp hstep
  refine or_iff_not_imp_left.2 fun hreset => ⟨?outBytes, ?count, ?result⟩
  case outBytes =>
    rintro (h | h)
    · exact commandWriteOf_of_step_ne (f := Block.outLo) (fun _ _ hlo _ _ _ => hlo)
        (fun op w b hop => (commandEffect_outBytes_of_not_encode op w b hop).1) hp hstep hreset h
    · exact commandWriteOf_of_step_ne (f := Block.outHi) (fun _ _ _ hhi _ _ => hhi)
        (fun op w b hop => (commandEffect_outBytes_of_not_encode op w b hop).2) hp hstep hreset h
  case count =>
    exact commandWriteOf_of_step_ne (f := Block.count) (fun _ _ _ _ hcount _ => hcount)
      commandEffect_count_of_zigzag hp hstep hreset
  case result =>
    exact commandWriteOf_of_step_ne (f := Block.result) (fun _ _ _ _ _ hresult => hresult)
      commandEffect_result_of_encode hp hstep hreset

end Sys2Proof.Proofs

namespace Sys2Proof.Proofs

open Sys2Proof.Machine Sys2Proof.Claims

/-! ### The round trip of an instruction's encoding (R81, R85, R92) -/

/-- Settles O4: an instruction is a command's, which the opcode map decodes, or a transaction, whose fields the BUS
word holds. -/
theorem decodeOfEncodeIsIdentity : Obligations.DecodeOfEncodeIsIdentity := by
  intro i
  obtain ⟨k, rfl⟩ | ⟨off, rfl⟩ | ⟨off, data, rfl⟩ := instr_cases i
  · exact Laws.RoundTrip.ofCommand k
  · exact Laws.RoundTrip.rd off
  · exact Laws.RoundTrip.wr off data

/-- Settles O1: nine fixed words, decoded. -/
theorem sampleWordsDecode : Obligations.SampleWordsDecode := by
  unfold Obligations.SampleWordsDecode
  decide

/-- Settles O6: twenty fixed lines, assembled. -/
theorem pseudoInstructionsExpandToOneWrite : Obligations.PseudoInstructionsExpandToOneWrite := by
  unfold Obligations.PseudoInstructionsExpandToOneWrite
  decide

end Sys2Proof.Proofs

namespace Sys2Proof.Proofs

open Sys2Proof.Machine Sys2Proof.Claims

/-! ### The zigzag functions are inverse (R141, R143, R144) -/

theorem zigzagValue_zigzagCode (v : Int) : zigzagValue (zigzagCode v) = v := by
  unfold zigzagCode zigzagValue
  split <;> split <;> omega

theorem zigzagCode_zigzagValue {u : Int} (hu : 0 ≤ u) : zigzagCode (zigzagValue u) = u := by
  unfold zigzagCode zigzagValue
  split <;> split <;> omega

@[simp] theorem zigzagDecode_zigzagEncode {W : Nat} (p : BitVec W) : zigzagDecode W (zigzagEncode W p) = p :=
  BitVec.eq_of_toInt_eq (by rw [zigzagDecode_toInt, zigzagEncode_toNat, zigzagValue_zigzagCode])

@[simp] theorem zigzagEncode_zigzagDecode {W : Nat} (q : BitVec W) : zigzagEncode W (zigzagDecode W q) = q := by
  refine BitVec.eq_of_toNat_eq (Int.ofNat_inj.1 ?_)
  rw [zigzagEncode_toNat, zigzagDecode_toInt, zigzagCode_zigzagValue (Int.natCast_nonneg _)]

@[simp] theorem zigzagDecode_zero (W : Nat) : zigzagDecode W 0 = 0 := by
  simp [zigzagDecode]

/-- Settles O33: the code is twice the value or its complement, the value half the code or its complement. -/
theorem zigzagInIntegerArithmetic : Obligations.ZigzagInIntegerArithmetic :=
  fun _ p => ⟨zigzagEncode_toNat p, zigzagDecode_toInt p⟩

/-- Settles O34: in integer arithmetic the two codes are inverse, and a pattern is the one its integer names. -/
theorem zigzagFunctionsAreInverse : Obligations.ZigzagFunctionsAreInverse :=
  fun _ p => ⟨zigzagDecode_zigzagEncode p, zigzagEncode_zigzagDecode p⟩

/-! ### What an encoding looks like (R111, R112) -/

theorem varintLen_le_maxGroups {w : Width} (u : BitVec w.bits) : varintLen u.toNat ≤ maxGroups w := by
  rw [← encodeVarint_length, ← groups_bits_eq_maxGroups]
  exact encodeVarint_length_le _ _

/-- Settles O23: the loop emits the bytes of R112, as many as R111 says, and never more than it allows. -/
theorem encodeVarintLengthAndBytes : Obligations.EncodeVarintLengthAndBytes :=
  fun _ u => ⟨encodeVarint_map_toNat u, varintLen_pos _, varintLen_le_maxGroups u⟩

/-- The bytes are those of a minimal encoding of `u`: continuation bytes, then one terminating byte that is not zero
unless it is the one byte of the value 0 (R112). -/
def MinimalEncodingOf (u : Nat) (bytes : List Byte) : Prop :=
  ∃ init last, bytes = init ++ [last] ∧ (∀ b ∈ init, b.getLsbD 7 = true) ∧ last.getLsbD 7 = false ∧
    (last = 0 → u = 0 ∧ init = [])

/-- A byte that does not continue the sequence is one below 128 (R8). -/
theorem terminates_iff {b : Byte} : b.getLsbD 7 = false ↔ b.toNat < 128 := by
  rw [← Bool.not_eq_true, continues_iff, not_le]

theorem minimalEncodingOf_last_group {u : Nat} (h : u / 128 = 0) :
    MinimalEncodingOf u [BitVec.ofNat 8 (u % 128)] := by
  refine ⟨[], _, rfl, by simp, terminates_iff.2 ?_, fun h0 => ⟨?_, rfl⟩⟩
  · rw [BitVec.toNat_ofNat]
    omega
  · have hu : u % 128 % 2 ^ 8 = 0 := by simpa using congrArg BitVec.toNat h0
    omega

/-- A group before a minimal encoding of a rest that is not 0 makes a minimal encoding again. -/
theorem minimalEncodingOf_cons_group {u : Nat} {bytes : List Byte} (h : u / 128 ≠ 0)
    (hrest : MinimalEncodingOf (u / 128) bytes) :
    MinimalEncodingOf u (BitVec.ofNat 8 (u % 128 + 128) :: bytes) := by
  obtain ⟨init, last, rfl, hinit, hlast, hmin⟩ := hrest
  have hgo : (BitVec.ofNat 8 (u % 128 + 128)).getLsbD 7 = true :=
    continues_iff.2 (by rw [BitVec.toNat_ofNat]; omega)
  exact ⟨_ :: init, last, rfl, List.forall_mem_cons.2 ⟨hgo, hinit⟩, hlast, fun h0 => absurd (hmin h0).1 h⟩

theorem minimalEncodingOf_encodeGroups {n u : Nat} (h : u < 128 ^ (n + 1)) :
    MinimalEncodingOf u (encodeGroups (n + 1) u) := by
  induction n generalizing u with
  | zero =>
    have hlast : u / 128 = 0 := by omega
    rw [encodeGroups_succ, if_pos hlast]
    exact minimalEncodingOf_last_group hlast
  | succ n ih =>
    rw [encodeGroups_succ]
    split
    case isTrue hlast => exact minimalEncodingOf_last_group hlast
    case isFalse hmore =>
      exact minimalEncodingOf_cons_group hmore (ih (Nat.div_lt_of_lt_mul (by rwa [← pow_succ'])))

theorem minimalEncodingOf_encodeVarint {w : Width} (u : BitVec w.bits) :
    MinimalEncodingOf u.toNat (encodeVarint w.bits u) := by
  have hu : u.toNat < 128 ^ (9 + 1) := u.isLt.trans (two_pow_bits_lt w)
  rw [encodeVarint_eq_encodeGroups hu]
  exact minimalEncodingOf_encodeGroups hu

/-- Settles O24: the loop adds a group before a rest only when the rest is not 0. -/
theorem encoderIsMinimal : Obligations.EncoderIsMinimal := by
  intro w u
  obtain ⟨init, last, henc, hinit, hlast, hmin⟩ := minimalEncodingOf_encodeVarint u
  refine ⟨init, last, henc, hinit, hlast, fun h0 => ?_⟩
  obtain ⟨hu, hnil⟩ := hmin h0
  exact ⟨BitVec.eq_of_toNat_eq hu, hnil⟩

/-! ### Terminated and unterminated sequences (R113, R114) -/

/-- Within its first `n` bytes a sequence has a first terminating byte, or continuation bytes alone. -/
theorem terminated_or_continuing (n : Nat) (seq : List Byte) :
    (∃ init last rest, seq = init ++ last :: rest ∧ (∀ b ∈ init, b.getLsbD 7 = true) ∧
      last.getLsbD 7 = false ∧ init.length < n) ∨ ∀ b ∈ seq.take n, b.getLsbD 7 = true := by
  induction n generalizing seq with
  | zero => exact .inr (by simp)
  | succ n ih =>
    cases seq with
    | nil => exact .inr (by simp)
    | cons b seq =>
      cases hb : b.getLsbD 7 with
      | false => exact .inl ⟨[], b, seq, rfl, by simp, hb, n.succ_pos⟩
      | true =>
        obtain ⟨init, last, rest, rfl, hinit, hlast, hlen⟩ | hmore := ih seq
        · exact .inl
            ⟨b :: init, last, rest, rfl, List.forall_mem_cons.2 ⟨hb, hinit⟩, hlast, Nat.succ_lt_succ hlen⟩
        · exact .inr (List.forall_mem_cons.2 ⟨hb, hmore⟩)

theorem decodeVarint_of_terminated {w : Width} {init : List Byte} {last : Byte} (rest : List Byte)
    (hinit : ∀ b ∈ init, b.getLsbD 7 = true) (hlast : last.getLsbD 7 = false) (hlen : init.length < maxGroups w) :
    decodeVarint w.bits (init ++ last :: rest) =
      (init.length + 1, BitVec.ofNat w.bits
        (groupSum (fun i => (init.getD i 0).toNat) init.length + last.toNat % 128 * 2 ^ (7 * init.length))) := by
  have hhead {i : Nat} (hi : i < init.length) : (init ++ last :: rest).getD i 0 = init.getD i 0 :=
    List.getD_append _ _ _ _ hi
  have hmid : (init ++ last :: rest).getD init.length 0 = last := by
    rw [List.getD_append_right _ _ _ _ le_rfl, Nat.sub_self, List.getD_cons_zero]
  have hmore : ∀ j < init.length, 128 ≤ ((init ++ last :: rest).getD j 0).toNat := fun j hj => by
    rw [hhead hj, List.getD_eq_getElem _ _ hj]
    exact continues_iff.1 (hinit _ (List.getElem_mem hj))
  have hend : ((init ++ last :: rest).getD init.length 0).toNat < 128 := by rwa [hmid, ← terminates_iff]
  rw [decodeVarint, groups_bits_eq_maxGroups, decodeGroups_of_terminated hlen (by simp) hend hmore, groupSum,
    Finset.sum_range_succ, hmid, ← groupSum, groupSum_congr fun i hi => congrArg BitVec.toNat (hhead hi)]
  simp

theorem decodeVarint_of_continuing {w : Width} {seq : List Byte}
    (h : ∀ b ∈ seq.take (maxGroups w), b.getLsbD 7 = true) : decodeVarint w.bits seq = (0, 0) := by
  have hmore : ∀ k < min seq.length (maxGroups w), 128 ≤ (seq.getD k 0).toNat := fun k hk => by
    obtain ⟨hlen, hG⟩ := lt_min_iff.1 hk
    rw [List.getD_eq_getElem _ _ hlen]
    exact continues_iff.1 (h _ (List.mem_take_iff_getElem.2 ⟨k, by omega, rfl⟩))
  rw [decodeVarint, groups_bits_eq_maxGroups, decodeGroups_of_unterminated hmore]

/-- Settles O25: the loop ends at the first terminating byte, with the groups up to it summed. -/
theorem decodeVarintReadsToTerminator : Obligations.DecodeVarintReadsToTerminator :=
  decodesTo_decodeVarint

/-! ### When a decode fails (R114, R119) -/

theorem decodeVarint_fst_eq_zero_iff {w : Width} {seq : List Byte} :
    (decodeVarint w.bits seq).1 = 0 ↔ ∀ b ∈ seq.take (maxGroups w), b.getLsbD 7 = true := by
  refine ⟨fun h0 => ?_, fun h => by rw [decodeVarint_of_continuing h]⟩
  obtain ⟨init, last, rest, rfl, hinit, hlast, hlen⟩ | hmore := terminated_or_continuing (maxGroups w) seq
  · rw [decodeVarint_of_terminated rest hinit hlast hlen] at h0
    exact absurd h0 (Nat.succ_ne_zero _)
  · exact hmore

theorem decodeVarint_snd_eq_zero {w : Width} {seq : List Byte} (h : (decodeVarint w.bits seq).1 = 0) :
    (decodeVarint w.bits seq).2 = 0 := by
  rw [decodeVarint_of_continuing (decodeVarint_fst_eq_zero_iff.1 h)]

/-- Settles O26: within the first G(W) bytes there is a terminating byte, at which the decode ends, or there is
none. -/
theorem decodeFailsExactlyOnUnterminatedInput : Obligations.DecodeFailsExactlyOnUnterminatedInput := by
  intro w seq
  refine ⟨?_, decodeVarint_snd_eq_zero, ?_⟩
  · rw [decodeVarint_fst_eq_zero_iff]
    obtain hshort | hfull := Nat.lt_or_ge seq.length (maxGroups w)
    · simp [hshort, hshort.not_ge, List.take_of_length_le hshort.le]
    · simp [hfull, hfull.not_gt]
  · obtain ⟨init, last, rest, rfl, hinit, hlast, hlen⟩ | hmore := terminated_or_continuing (maxGroups w) seq
    · rw [decodeVarint_of_terminated rest hinit hlast hlen]
      simp
      omega
    · rw [decodeVarint_of_continuing hmore]
      exact Nat.zero_le _

/-! ### The sum of the groups (R112, R113, R115) -/

theorem groupSum_lt (byte : Nat → Nat) (n : Nat) : groupSum byte n < 2 ^ (7 * n) := by
  induction n with
  | zero => simp [groupSum]
  | succ n ih =>
    have hgroup : byte n % 128 * 2 ^ (7 * n) ≤ 127 * 2 ^ (7 * n) := Nat.mul_le_mul_right _ (by omega)
    rw [groupSum] at ih ⊢
    rw [Finset.sum_range_succ, Nat.mul_succ, pow_add]
    omega

/-- Groups that are those of `u` sum to the low bits of `u`. -/
theorem groupSum_of_groups {byte : Nat → Nat} {u n : Nat} (h : ∀ i < n, byte i % 128 = u / 2 ^ (7 * i) % 128) :
    groupSum byte n = u % 2 ^ (7 * n) := by
  induction n with
  | zero => simp [groupSum, Nat.mod_one]
  | succ n ih =>
    have hlow := ih fun i hi => h i (by omega)
    rw [groupSum] at hlow ⊢
    rw [Finset.sum_range_succ, hlow, h n n.lt_succ_self, Nat.mul_succ, pow_add, Nat.mod_mul,
      Nat.mul_comm (2 ^ (7 * n))]
    rfl

theorem seven_mul_pred_maxGroups_le (w : Width) : 7 * (maxGroups w - 1) ≤ w.bits := by
  cases w <;> decide

/-- The groups before the last of G(W) lie below bit W. -/
theorem groupSum_lt_two_pow_bits {w : Width} {n : Nat} (hn : n < maxGroups w) (byte : Nat → Nat) :
    groupSum byte n < 2 ^ w.bits := by
  have hbits := seven_mul_pred_maxGroups_le w
  exact (groupSum_lt byte n).trans_le (Nat.pow_le_pow_right (by decide) (by omega))

/-- Settles O27: the groups before the last are exact, and of the last group the sum modulo 2^W keeps the bits below
bit W. -/
theorem excessBitsOfLastGroupAreDiscarded : Obligations.ExcessBitsOfLastGroupAreDiscarded := by
  intro w init last hlen hinit hlast
  rw [decodeVarint_of_terminated [] hinit hlast (by omega)]
  refine ⟨hlen, ?_⟩
  have hsum := groupSum_lt (fun i => (init.getD i 0).toNat) init.length
  obtain hn : init.length = maxGroups w - 1 := by omega
  rw [BitVec.toNat_ofNat]
  generalize groupSum (fun i => (init.getD i 0).toNat) init.length = sum at hsum ⊢
  rw [hn] at hsum ⊢
  cases w <;> simp only [maxGroups, Width.bits] at hsum ⊢ <;> omega

/-! ### The round trips (R118, R171) -/

theorem varintByte_mod (u i : Nat) : varintByte u i % 128 = u / 2 ^ (7 * i) % 128 := by
  rw [varintByte]
  split <;> omega

/-- The length of R111 is enough for the value's bits. -/
theorem lt_two_pow_varintLen (u : Nat) : u < 2 ^ (7 * varintLen u) :=
  Nat.size_le.1 (by rw [varintLen]; omega)

/-- The groups of a value from its length on are zero. -/
theorem div_eq_zero_of_varintLen_le {u i : Nat} (h : varintLen u ≤ i) : u / 2 ^ (7 * i) = 0 :=
  Nat.div_eq_of_lt ((lt_two_pow_varintLen u).trans_le (Nat.pow_le_pow_right (by decide) (by omega)))

theorem varintByte_lt {u i : Nat} (h : varintLen u ≤ i + 1) : varintByte u i < 128 := by
  rw [varintByte, if_neg (by omega)]
  omega

theorem le_varintByte {u i : Nat} (h : i + 1 < varintLen u) : 128 ≤ varintByte u i := by
  rw [varintByte, if_pos h]
  omega

/-- Enough groups of a value sum to the value. -/
theorem groupSum_eq_of_groups {byte : Nat → Nat} {u n : Nat} (hn : varintLen u ≤ n)
    (h : ∀ i < n, byte i % 128 = u / 2 ^ (7 * i) % 128) : groupSum byte n = u := by
  rw [groupSum_of_groups h]
  exact Nat.mod_eq_of_lt ((lt_two_pow_varintLen u).trans_le (Nat.pow_le_pow_right (by decide) (by omega)))

theorem encodeVarint_getD_toNat {w : Width} (u : BitVec w.bits) (t : List Byte) {i : Nat}
    (hi : i < varintLen u.toNat) : ((encodeVarint w.bits u ++ t).getD i 0).toNat = varintByte u.toNat i := by
  have hlen : i < (encodeVarint w.bits u).length := by rwa [encodeVarint_length]
  have hbyte := congrArg (fun l => l[i]?) (encodeVarint_map_toNat u)
  rw [List.getD_append _ _ _ _ hlen, List.getD_eq_getElem _ _ hlen]
  simpa [hi, hlen] using hbyte

/-- The round trip of R118: a decode reads the encoding up to its last byte, and no further. -/
theorem decodeVarint_encodeVarint_append {w : Width} (u : BitVec w.bits) (t : List Byte) :
    decodeVarint w.bits (encodeVarint w.bits u ++ t) = (varintLen u.toNat, u) := by
  have hpos := varintLen_pos u.toNat
  have hread : varintLen u.toNat - 1 < min (encodeVarint w.bits u ++ t).length (maxGroups w) := by
    have hG := varintLen_le_maxGroups u
    rw [List.length_append, encodeVarint_length]
    omega
  have hbyte {i : Nat} (hi : i < varintLen u.toNat) := encodeVarint_getD_toNat u t hi
  obtain ⟨hconsumed, hvalue⟩ := (decodesTo_decodeVarint w (encodeVarint w.bits u ++ t)).1 _ hread
    ((hbyte (by omega)).trans_lt (varintByte_lt (by omega)))
    fun j hj => (le_varintByte (by omega)).trans_eq (hbyte (by omega)).symm
  rw [Nat.sub_add_cancel hpos] at hconsumed hvalue
  rw [groupSum_eq_of_groups le_rfl fun i hi => by rw [hbyte hi, varintByte_mod], Nat.mod_eq_of_lt u.isLt] at hvalue
  exact Prod.ext hconsumed (BitVec.eq_of_toNat_eq hvalue)

/-- Settles O30: the bytes of the encoding are the groups of the value, with bit 7 clear in the last one alone. -/
theorem varintRoundTrip : Obligations.VarintRoundTrip :=
  fun _ => decodeVarint_encodeVarint_append

theorem decodeSvarint_encodeSvarint_append {w : Width} (p : BitVec w.bits) (t : List Byte) :
    decodeSvarint w.bits (encodeSvarint w.bits p ++ t) = (varintLen (zigzagEncode w.bits p).toNat, p) := by
  rw [decodeSvarint, encodeSvarint, decodeVarint_encodeVarint_append, zigzagDecode_zigzagEncode]

/-- Settles O31: the unsigned round trip of the zigzag code, then the zigzag round trip. -/
theorem signedVarintRoundTrip : Obligations.SignedVarintRoundTrip := by
  intro w p t
  rw [decodeSvarint_encodeSvarint_append, ← zigzagEncode_toNat, Int.toNat_natCast]

/-! ### Non-minimal encodings (R116) -/

theorem decodeVarint_zero_terminated {w : Width} {init : List Byte} (hinit : ∀ b ∈ init, b.getLsbD 7 = true)
    (hlen : init.length < maxGroups w) :
    decodeVarint w.bits (init ++ [0x00]) =
      (init.length + 1, BitVec.ofNat w.bits (groupSum (fun i => (init.getD i 0).toNat) init.length)) := by
  rw [decodeVarint_of_terminated [] hinit (by decide) hlen]
  simp

/-- The continuation bytes of a padded encoding: its groups, each with bit 7 set, then `n` zero groups. -/
def paddedGroups (n : Nat) (s : List Byte) : List Byte :=
  s.map (fun b => b ||| 0x80) ++ List.replicate n 0x80

theorem padZeroGroups_succ (n : Nat) (s : List Byte) : padZeroGroups (n + 1) s = paddedGroups n s ++ [0x00] :=
  (List.append_assoc _ _ _).symm

theorem paddedGroups_length (n : Nat) (s : List Byte) : (paddedGroups n s).length = s.length + n := by
  simp [paddedGroups]

theorem flag_set (b : Byte) : (b ||| 0x80).getLsbD 7 = true := by
  revert b
  decide

theorem flag_set_toNat_mod (b : Byte) : (b ||| 0x80).toNat % 128 = b.toNat % 128 := by
  revert b
  decide

theorem continues_of_mem_paddedGroups {n : Nat} {s : List Byte} {b : Byte} (hb : b ∈ paddedGroups n s) :
    b.getLsbD 7 = true := by
  obtain hb | hb := List.mem_append.1 hb
  · obtain ⟨c, -, rfl⟩ := List.mem_map.1 hb
    exact flag_set c
  · rw [List.eq_of_mem_replicate hb]
    decide

/-- The groups of a padded sequence are those of the sequence, followed by zero groups. -/
theorem paddedGroups_getD_mod {n : Nat} {s : List Byte} (i : Nat) :
    ((paddedGroups n s).getD i 0).toNat % 128 = (s.getD i 0).toNat % 128 := by
  obtain hi | hi := Nat.lt_or_ge i s.length
  · rw [paddedGroups, List.getD_append _ _ _ _ (by simpa using hi), List.getD_eq_getElem _ _ (by simpa using hi),
      List.getD_eq_getElem _ _ hi, List.getElem_map, flag_set_toNat_mod]
  · rw [List.getD_eq_default _ _ hi, paddedGroups, List.getD_append_right _ _ _ _ (by simpa using hi)]
    simp only [List.getD_eq_getElem?_getD, List.getElem?_replicate]
    split <;> rfl

theorem encodeVarint_getD_mod {w : Width} (u : BitVec w.bits) (i : Nat) :
    ((encodeVarint w.bits u).getD i 0).toNat % 128 = u.toNat / 2 ^ (7 * i) % 128 := by
  obtain hi | hi := Nat.lt_or_ge i (varintLen u.toNat)
  · have hbyte := encodeVarint_getD_toNat u [] hi
    rw [List.append_nil] at hbyte
    rw [hbyte, varintByte_mod]
  · rw [List.getD_eq_default _ _ (by rwa [encodeVarint_length]), div_eq_zero_of_varintLen_le hi]
    rfl

theorem decodeVarint_padZeroGroups {w : Width} {u : BitVec w.bits} {n : Nat}
    (hlen : varintLen u.toNat + (n + 1) ≤ maxGroups w) :
    decodeVarint w.bits (padZeroGroups (n + 1) (encodeVarint w.bits u)) = (varintLen u.toNat + (n + 1), u) := by
  have hpad : (paddedGroups n (encodeVarint w.bits u)).length = varintLen u.toNat + n := by
    rw [paddedGroups_length, encodeVarint_length]
  rw [padZeroGroups_succ, decodeVarint_zero_terminated (fun _ => continues_of_mem_paddedGroups) (by omega), hpad,
    groupSum_eq_of_groups (Nat.le_add_right _ _)
      fun i _ => (paddedGroups_getD_mod i).trans (encodeVarint_getD_mod u i)]
  simp [Nat.add_assoc]

/-- Settles O28: a last group of 0 adds nothing to the sum, which lies below bit W, and zero groups after the groups
of a value leave the sum as it is. -/
theorem nonMinimalEncodingIsAccepted : Obligations.NonMinimalEncodingIsAccepted := by
  constructor
  · intro w init _ hinit hlen
    rw [decodeVarint_zero_terminated hinit hlen]
    exact ⟨rfl, by rw [BitVec.toNat_ofNat, Nat.mod_eq_of_lt (groupSum_lt_two_pow_bits hlen _)]⟩
  · intro w u n hn hlen
    obtain ⟨n, rfl⟩ := Nat.exists_eq_add_of_le' hn
    exact decodeVarint_padZeroGroups hlen

/-! ### Bytes a decode does not read, and bytes it lacks (R114, R117) -/

theorem decodeGroups_take (n i acc : Nat) (seq : List Byte) :
    decodeGroups n i acc (seq.take n) = decodeGroups n i acc seq := by
  induction n generalizing i acc seq with
  | zero => rfl
  | succ n ih =>
    cases seq with
    | nil => rfl
    | cons b seq => rw [List.take_succ_cons, decodeGroups_cons, decodeGroups_cons, ih]

/-- A decode reads at most G(W) bytes (R113). -/
theorem decodeVarint_take (w : Width) (seq : List Byte) :
    decodeVarint w.bits (seq.take (maxGroups w)) = decodeVarint w.bits seq := by
  rw [decodeVarint, decodeVarint, ← groups_bits_eq_maxGroups, decodeGroups_take]

theorem decodeVarint_append_of_maxGroups_le {w : Width} {seq : List Byte} (t : List Byte)
    (h : maxGroups w ≤ seq.length) : decodeVarint w.bits (seq ++ t) = decodeVarint w.bits seq := by
  rw [← decodeVarint_take w (seq ++ t), List.take_append_of_le_length h, decodeVarint_take]

/-- Settles O29: a decode reads up to the terminating byte when it stands within G(W) bytes, and otherwise G(W)
bytes. -/
theorem unreadBytesDoNotAffectDecode : Obligations.UnreadBytesDoNotAffectDecode := by
  refine fun w seq t => ⟨fun hterm => ?_, decodeVarint_append_of_maxGroups_le t⟩
  obtain ⟨init, last, rest, rfl, hinit, hlast, hlen⟩ | hmore := terminated_or_continuing (maxGroups w) seq
  · rw [List.append_assoc, List.cons_append, decodeVarint_of_terminated _ hinit hlast hlen,
      decodeVarint_of_terminated _ hinit hlast hlen]
  · refine decodeVarint_append_of_maxGroups_le t (Nat.le_of_not_lt fun hshort => ?_)
    obtain ⟨b, hb, hlast⟩ := hterm
    rw [List.take_of_length_le hshort.le] at hmore
    exact Bool.noConfusion (hlast.symm.trans (hmore b hb))

theorem decodeVarint_take_encodeVarint {w : Width} {u : BitVec w.bits} {n : Nat} (h : n < varintLen u.toNat) :
    decodeVarint w.bits ((encodeVarint w.bits u).take n) = (0, 0) := by
  obtain ⟨init, last, henc, hinit, -, -⟩ := minimalEncodingOf_encodeVarint u
  have hlen : n ≤ init.length := by
    have := encodeVarint_length u
    rw [henc, List.length_append, List.length_singleton] at this
    omega
  rw [henc, List.take_append_of_le_length hlen]
  exact decodeVarint_of_continuing fun b hb => hinit b (List.mem_of_mem_take (List.mem_of_mem_take hb))

theorem decodeSvarint_of_decodeVarint_eq_zero {w : Width} {seq : List Byte} (h : decodeVarint w.bits seq = (0, 0)) :
    decodeSvarint w.bits seq = (0, 0) := by
  rw [decodeSvarint, h, zigzagDecode_zero]

/-- Settles O32: every byte of an encoding but the last continues, and the zigzag value of 0 is 0. -/
theorem truncatedEncodingGivesSentinel : Obligations.TruncatedEncodingGivesSentinel :=
  fun _ _ _ h => ⟨decodeVarint_take_encodeVarint h,
    decodeSvarint_of_decodeVarint_eq_zero (decodeVarint_take_encodeVarint h)⟩

end Sys2Proof.Proofs

namespace Sys2Proof.Proofs

open Sys2Proof.Machine Sys2Proof.Claims

/-! ### The invariant of the block (R37) -/

/-- Settles O49: COUNT is 0, and the output window is the encoding of 0. -/
theorem invariantHoldsAtReset : Obligations.InvariantHoldsAtReset :=
  ⟨Nat.zero_le 10, 0, by decide, by decide⟩

/-- The invariant, as a property of the block alone. -/
def BlockInv (b : Block) : Prop := b.CountInRange ∧ b.OutputIsEncoding

theorem inv_iff_blockInv {s : State} : s.Inv ↔ BlockInv s.block := Iff.rfl

/-- The invariant is one of COUNT, OUT_LO and OUT_HI alone. -/
theorem blockInv_of_outputs_eq {b c : Block} (hcount : c.count = b.count) (hlo : c.outLo = b.outLo)
    (hhi : c.outHi = b.outHi) (h : BlockInv b) : BlockInv c := by
  unfold BlockInv Block.CountInRange Block.OutputIsEncoding at *
  rwa [hcount, hlo, hhi]

/-- A value has the same encoding at every width it fits. -/
theorem encodeVarint_setWidth {w : Width} (u : BitVec w.bits) :
    encodeVarint 64 (u.setWidth 64) = encodeVarint w.bits u := by
  have hu : u.toNat < 128 ^ (9 + 1) := u.isLt.trans (two_pow_bits_lt w)
  have hwide : (u.setWidth 64).toNat = u.toNat := zext64_toNat u
  rw [encodeVarint_eq_encodeGroups hu, ← hwide]
  exact encodeVarint_eq_encodeGroups (w := .w64) (hwide ▸ hu)

theorem encodeVarint_length_le_ten {w : Width} (u : BitVec w.bits) : (encodeVarint w.bits u).length ≤ 10 :=
  (encodeVarint_length_le _ _).trans (groups_bits_le_ten w)

theorem count_toNat_of_le_ten {n : Nat} (h : n ≤ 10) : (BitVec.ofNat 4 n).toNat = n := by
  rw [BitVec.toNat_ofNat]
  omega

/-- An encode establishes the invariant, whatever the block held. -/
theorem blockInv_pack {w : Width} (b : Block) (u : BitVec w.bits) : BlockInv (b.pack (encodeVarint w.bits u)) := by
  refine ⟨?_, u.setWidth 64, ?_, ?_⟩
  · rw [Block.CountInRange, Block.pack_count, count_toNat_of_le_ten (encodeVarint_length_le_ten u)]
    exact encodeVarint_length_le_ten u
  · rw [Block.pack_outLo, encodeVarint_setWidth]
  · rw [Block.pack_outHi, encodeVarint_setWidth]

/-- A decode writes a COUNT in range and leaves the output window. -/
theorem blockInv_setDecoded {w : Width} {b : Block} (seq : List Byte) (v : Word) (h : BlockInv b) :
    BlockInv (b.setDecoded (decodeVarint w.bits seq).1 v) := by
  obtain ⟨-, hwindow⟩ := h
  refine ⟨?_, hwindow⟩
  have hle : (decodeVarint w.bits seq).1 ≤ 10 := (decodeVarint_consumed_le _ _).trans (groups_bits_le_ten w)
  rwa [Block.CountInRange, Block.setDecoded_count, count_toNat_of_le_ten hle]

theorem blockInv_commandEffect (k : Command) {b : Block} (h : BlockInv b) : BlockInv (commandEffect k b) := by
  obtain ⟨op, w⟩ := k
  cases op with
  | vencU => exact blockInv_pack b (b.operandOf w.bits)
  | vencS => exact blockInv_pack b (zigzagEncode w.bits (b.operandOf w.bits))
  | vdecU | vdecS => exact blockInv_setDecoded b.inputSeq _ h
  | zzenc | zzdec => exact blockInv_of_outputs_eq rfl rfl rfl h

theorem blockInv_performEffect (c : Word) {b : Block} (h : BlockInv b) : BlockInv (performEffect c b) := by
  by_cases hc : LegalWord c
  · obtain ⟨k, rfl⟩ := legalWord_iff_exists_command.1 hc
    rw [performEffect_word]
    exact blockInv_commandEffect k h
  · rw [performEffect_of_not_legalWord hc]
    exact blockInv_of_outputs_eq rfl rfl rfl h

theorem blockInv_writeEffect (r : Reg) (v : Word) {b : Block} (h : BlockInv b) : BlockInv (writeEffect r v b) := by
  cases r with
  | cmd => exact blockInv_performEffect v (blockInv_of_outputs_eq rfl rfl rfl h)
  | status =>
    rw [writeEffect, Block.writeStatus_eq]
    exact blockInv_of_outputs_eq rfl rfl rfl h
  | operand | inLo | inHi | inAvail => exact blockInv_of_outputs_eq rfl rfl rfl h
  | outLo | outHi | count | result | reserved => exact h

/-- Settles O50: a reset and an encode establish the invariant, a decode writes a COUNT in range, and no other input
writes COUNT or the output window. -/
theorem stepKeepsInvariant : Obligations.StepKeepsInvariant := by
  intro s t hinv hstep
  rw [inv_iff_blockInv] at hinv ⊢
  obtain ⟨e, rest, -, ⟨-, rfl⟩ | ⟨a, r, -, -, -, -, rfl⟩ | ⟨a, r, -, -, -, -, rfl⟩⟩ := step_cases hstep
  · exact invariantHoldsAtReset
  · exact hinv
  · exact blockInv_writeEffect r a.wdata hinv

end Sys2Proof.Proofs

namespace Sys2Proof.Proofs

open Sys2Proof.Machine Sys2Proof.Claims

/-! ### The step on a presented instruction (R200, R203) -/

theorem step_of_decodeTransaction {s : State} {a : Transaction} {rest : List PortEvent} {i : Instr}
    (hp : s.pending = .access a :: rest) (hi : decodeTransaction a = .ok i) : step s = exec i (s.accept rest) := by
  simp only [step, hp, hi]

/-- Settles O7: the first pending input is taken, and its instruction runs. -/
theorem stepRunsDecodedTransaction : Obligations.StepRunsDecodedTransaction :=
  fun _ _ _ _ => step_of_decodeTransaction

theorem decodeTransaction_of_decode_bus {t : BitVec 72} {i : Instr} (h : decode (.bus t) = .ok i) :
    decodeTransaction (transactionOfBus t) = .ok i := by
  rw [decode] at h
  split at h
  · rename_i hi
    cases h
    exact hi
  · cases h

/-- A BUS word runs as the transaction it shows. -/
theorem step_presentFirst_bus {t : BitVec 72} {i : Instr} (h : decode (.bus t) = .ok i) (s : State) :
    step (s.presentFirst (.access (CodeWord.bus t).transaction)) = exec i { s with rdata := none } :=
  step_of_decodeTransaction (State.presentFirst_pending s _) (decodeTransaction_of_decode_bus h)

/-- A command word runs as its command, once CMD holds it. -/
theorem step_presentFirst_cmd {c : Word} {i : Instr} (h : decode (.cmd c) = .ok i) (s : State) :
    step (s.presentFirst (.access (CodeWord.cmd c).transaction)) =
      exec i { s with rdata := none, block := { s.block with cmd := c } } := by
  obtain ⟨k, rfl, rfl⟩ := mem_opcodeMap_iff.1 (decode_cmd_eq_ok_iff.1 h)
  have hwrite : decodeTransaction (CodeWord.cmd k.word).transaction = .ok (.wr 0x00 k.word) := rfl
  rw [step_of_decodeTransaction (State.presentFirst_pending s _) hwrite, exec_wr_cmd, exec_toInstr]
  simp only [performEffect_word]
  rfl

/-- Settles O8: the encoding decodes to the instruction, so presenting it runs the instruction. -/
theorem issuedInstructionRuns : Obligations.IssuedInstructionRuns := by
  intro i s hi
  have hdec := decodeOfEncodeIsIdentity i hi
  cases henc : encode i with
  | bus t => exact step_presentFirst_bus (henc ▸ hdec) s
  | cmd c => exact step_presentFirst_cmd (henc ▸ hdec) s

/-- A table word decodes as the code word it numbers. -/
theorem decodeTableWord_eq_some {nbits w : Nat} {i : Instr} (h : decodeTableWord nbits w = some i) :
    ∃ cw, tableWord nbits w = some cw ∧ decode cw = .ok i := by
  rw [decodeTableWord] at h
  split at h
  · cases h
  · rename_i cw hcw
    split at h
    · rename_i hi
      cases h
      exact ⟨cw, hcw, hi⟩
    · cases h

/-- Settles O9: a table word of at most 64 bits is a command word, one of at most 72 bits a BUS word. -/
theorem tableWordRunsInNextStep : Obligations.TableWordRunsInNextStep := by
  intro s nbits w i h
  obtain ⟨cw, hcw, hdec⟩ := decodeTableWord_eq_some h
  rw [State.withFetchWord, hcw]
  rw [tableWord] at hcw
  split at hcw
  case isTrue hcmd =>
    cases hcw
    rw [if_pos hcmd]
    exact step_presentFirst_cmd hdec s
  case isFalse hbus =>
    rw [if_neg hbus]
    split at hcw
    · cases hcw
      exact step_presentFirst_bus hdec s
    · cases hcw

/-! ### Which inputs are served (R200, R252) -/

theorem exists_step_of_admitted {s : State} {e : PortEvent} {rest : List PortEvent} (hp : s.pending = e :: rest)
    (h : e.admitted = true) : ∃ t, step s = .next t := by
  cases e with
  | reset => exact ⟨_, step_reset hp⟩
  | access a => exact step_of_admitted hp h

theorem admitted_of_regAt {a : Transaction} {r : Reg} (hsize : a.size = 3) (hr : regAt a.off = some r) :
    (PortEvent.access a).admitted = true := by
  refine admitted_access_iff.2 ⟨congrArg BitVec.toNat hsize, by_contra fun h => ?_⟩
  rw [regAt_eq_none.2 h] at hr
  cases hr

/-- A step serves one admitted input, the first, and takes no other. -/
theorem exists_admitted_of_step {s t : State} (h : step s = .next t) :
    ∃ e, s.pending = e :: t.pending ∧ e.admitted = true := by
  obtain ⟨e, rest, hp, hcase⟩ := step_cases h
  obtain ⟨rfl, rfl⟩ | ⟨a, r, rfl, hsize, hr, -, rfl⟩ | ⟨a, r, rfl, hsize, hr, -, rfl⟩ := hcase
  · exact ⟨_, hp, rfl⟩
  · exact ⟨_, hp, admitted_of_regAt hsize hr⟩
  · exact ⟨_, hp, admitted_of_regAt hsize hr⟩

theorem pending_of_step {s t : State} (h : step s = .next t) : t.pending = s.pending.tail := by
  obtain ⟨e, hp, -⟩ := exists_admitted_of_step h
  rw [hp, List.tail_cons]

/-- Settles O13: a step serves an admitted input, and an admitted input is served. -/
theorem stepsExactlyOnAdmittedInput : Obligations.StepsExactlyOnAdmittedInput := by
  intro s
  refine ⟨⟨?_, ?_⟩, fun t => pending_of_step⟩
  · rintro ⟨t, h⟩
    obtain ⟨e, hp, hadm⟩ := exists_admitted_of_step h
    exact ⟨e, t.pending, hp, hadm⟩
  · rintro ⟨e, rest, hp, hadm⟩
    exact exists_step_of_admitted hp hadm

theorem core_run_succ {s u : State} (k : Nat) (hstep : step s = .next u) : core.run (k + 1) s = core.run k u := by
  have hcore : core.step s = .next u := hstep
  simp only [Host.Core.run, hcore]

theorem runsTo_succ {s u t : State} {k : Nat} (hstep : step s = .next u) (hrun : u.RunsTo k t) :
    s.RunsTo (k + 1) t :=
  (core_run_succ k hstep).trans hrun

/-- Settles O14, by induction on the presented inputs: each step serves the first and leaves the rest presented. -/
theorem wellDrivenRunServesEveryInput : Obligations.WellDrivenRunServesEveryInput := by
  intro s
  induction hp : s.pending generalizing s with
  | nil => exact fun _ => ⟨s, rfl, hp⟩
  | cons e rest ih =>
    intro hdriven
    rw [State.WellDriven, hp, List.forall_mem_cons] at hdriven
    obtain ⟨hadm, hrest⟩ := hdriven
    obtain ⟨u, hstep⟩ := exists_step_of_admitted hp hadm
    have hu : u.pending = rest := by rw [pending_of_step hstep, hp, List.tail_cons]
    obtain ⟨t, hrun, hdone⟩ := ih u hu (by rwa [State.WellDriven, hu])
    exact ⟨t, runsTo_succ hstep hrun, hdone⟩

/-! ### Writing a command word again (R55) -/

/-- No command reads an output, so running it again computes the same outputs. -/
theorem commandEffect_idem (k : Command) (b : Block) : commandEffect k (commandEffect k b) = commandEffect k b := by
  obtain ⟨op, w⟩ := k
  cases op <;> rfl

theorem performEffect_idem (c : Word) (b : Block) : performEffect c (performEffect c b) = performEffect c b := by
  by_cases hc : LegalWord c
  · obtain ⟨k, rfl⟩ := legalWord_iff_exists_command.1 hc
    simp only [performEffect_word, commandEffect_idem]
  · simp only [performEffect_of_not_legalWord hc]
    rfl

theorem setCmd_of_cmd_eq {b : Block} {c : Word} (h : b.cmd = c) : { b with cmd := c } = b := by
  rw [← h]

/-- A second write of a word finds CMD holding it, and performs it on the inputs that the first left as they were. -/
theorem writeEffect_cmd_idem (c : Word) (b : Block) :
    writeEffect .cmd c (writeEffect .cmd c b) = writeEffect .cmd c b :=
  calc writeEffect .cmd c (writeEffect .cmd c b)
    _ = performEffect c (performEffect c { b with cmd := c }) :=
      congrArg (performEffect c) (setCmd_of_cmd_eq (performEffect_cmd c _))
    _ = writeEffect .cmd c b := performEffect_idem c _

/-- Settles O18: a write to CMD completes with its effect, which a second write does not change. -/
theorem commandWriteIsIdempotent : Obligations.CommandWriteIsIdempotent := by
  intro c s
  have hcmd : regAt 0x00 = some .cmd := rfl
  refine ⟨_, exec_wr_of_regAt hcmd c s, ?_⟩
  rw [exec_wr_of_regAt hcmd, State.onBlock, State.onBlock_block, writeEffect_cmd_idem]
  rfl

end Sys2Proof.Proofs

namespace Sys2Proof.Proofs

open Sys2Proof.Machine Sys2Proof.Claims

/-! ### The platform's side of the window (R50) -/

theorem vzcBase_mod : Config.vzcBase % 128 = 0 :=
  Nat.mul_mod_right 128 Config.vzcBaseIndex

theorem windowOffset_base_add {base k : Nat} (hk : k < 128) :
    windowOffset base (base + k) = some (BitVec.ofNat 7 k) := by
  rw [windowOffset, if_pos ⟨Nat.le_add_right _ _, Nat.add_lt_add_left hk base⟩, Nat.add_sub_cancel_left]

theorem windowOffset_outside {base addr : Nat} (h : addr < base ∨ base + 128 ≤ addr) :
    windowOffset base addr = none := by
  rw [windowOffset, Config.windowBytes, if_neg (by omega)]

/-- Settles O20: the window's offsets are the distances from the base, which is a multiple of 8. -/
theorem platformAccessReachesWindow : Obligations.PlatformAccessReachesWindow := by
  have hbase := vzcBase_mod
  refine ⟨hbase, fun s a k hk haddr => ?_, fun s a h => ?_⟩
  · have hoff : (BitVec.ofNat 7 k).toNat = k := by rw [BitVec.toNat_ofNat, Nat.mod_eq_of_lt hk]
    refine ⟨BitVec.ofNat 7 k, hoff, ?_, ?_⟩
    · rw [isAligned_iff, hoff, haddr]
      omega
    · rw [State.hostAccess, haddr, windowOffset_base_add hk]
      rfl
  · rw [State.hostAccess, windowOffset_outside h]

/-! ### Byte lanes (R58, R59) -/

/-- The lanes of the register at `8 n` are its bytes, least significant first. -/
theorem windowByte_toNat {n i : Nat} {r : Reg} (hr : regAt (BitVec.ofNat 7 (8 * n)) = some r) (hi : i < 8)
    (b : Block) : (b.windowByte (8 * n + i)).toNat = (b.read r).toNat / 256 ^ i % 256 := by
  have hreg : (8 * n + i) / 8 = n := by omega
  have hlane : (8 * n + i) % 8 = i := by omega
  rw [Block.windowByte, hreg, hlane, hr]
  exact wordByte_toNat _ _

/-- Two registers side by side show a sequence of bytes, the second from byte 8 on. -/
theorem windowByte_toNat_pair {n i : Nat} {lo hi : Reg} (hlo : regAt (BitVec.ofNat 7 (8 * n)) = some lo)
    (hhi : regAt (BitVec.ofNat 7 (8 * (n + 1))) = some hi) (h : i < 16) (b : Block) :
    (b.windowByte (8 * n + i)).toNat =
      if i < 8 then (b.read lo).toNat / 256 ^ i % 256 else (b.read hi).toNat / 256 ^ (i - 8) % 256 := by
  split
  case isTrue hfirst => exact windowByte_toNat hlo hfirst b
  case isFalse hsecond =>
    obtain ⟨j, rfl⟩ := Nat.exists_eq_add_of_le (Nat.le_of_not_lt hsecond)
    rw [Nat.add_sub_cancel_left, ← Nat.add_assoc]
    exact windowByte_toNat hhi (by omega) b

/-- Settles O21: the lanes of a register are its bytes, and the output and the input bytes fill two registers side by
side. -/
theorem byteLanesAreLittleEndian : Obligations.ByteLanesAreLittleEndian := by
  refine fun b => ⟨fun i hi => ⟨?_, ?_⟩, fun k hk => ⟨?_, ?_⟩⟩
  · have houtHi : (zext64 b.outHi).toNat = b.outHi.toNat := zext64_toNat (w := .w16) b.outHi
    rw [outputByte, ← houtHi]
    exact windowByte_toNat_pair (n := 6) (lo := .outLo) (hi := .outHi) rfl rfl (by omega) b
  · exact windowByte_toNat_pair (n := 3) (lo := .inLo) (hi := .inHi) rfl rfl (by omega) b
  · exact windowByte_toNat (n := 2) (r := .operand) rfl hk b
  · exact windowByte_toNat (n := 9) (r := .result) rfl hk b

/-! ### What a write changes of the inputs and of ILL (R22 to R24) -/

theorem performEffect_inputs (c : Word) (b : Block) :
    (performEffect c b).operand = b.operand ∧ (performEffect c b).inLo = b.inLo ∧
    (performEffect c b).inHi = b.inHi ∧ (performEffect c b).inAvail = b.inAvail := by
  by_cases hc : LegalWord c
  · obtain ⟨k, rfl⟩ := legalWord_iff_exists_command.1 hc
    obtain ⟨-, -, hinputs⟩ := commandEffect_inputs k b
    rwa [performEffect_word]
  · rw [performEffect_of_not_legalWord hc]
    exact ⟨rfl, rfl, rfl, rfl⟩

/-- A write changes an input register when it is the register written, and no other way. -/
theorem writeEffect_inputs (r : Reg) (v : Word) (b : Block) :
    (writeEffect r v b).operand = (if r = .operand then v else b.operand) ∧
    (writeEffect r v b).inLo = (if r = .inLo then v else b.inLo) ∧
    (writeEffect r v b).inHi = (if r = .inHi then v else b.inHi) ∧
    (writeEffect r v b).inAvail = (if r = .inAvail then v else b.inAvail) := by
  cases r with
  | cmd => exact performEffect_inputs v _
  | status =>
    rw [writeEffect, Block.writeStatus_eq]
    exact ⟨rfl, rfl, rfl, rfl⟩
  | operand | inLo | inHi | inAvail => exact ⟨rfl, rfl, rfl, rfl⟩
  | outLo | outHi | count | result | reserved => exact ⟨rfl, rfl, rfl, rfl⟩

theorem performEffect_ill (c : Word) (b : Block) :
    (performEffect c b).ill = true ↔ ¬ LegalWord c ∨ b.ill = true := by
  by_cases hc : LegalWord c
  · obtain ⟨k, rfl⟩ := legalWord_iff_exists_command.1 hc
    obtain ⟨-, hill, -⟩ := commandEffect_inputs k b
    rw [performEffect_word, hill]
    exact (or_iff_right (not_not.2 hc)).symm
  · rw [performEffect_of_not_legalWord hc]
    exact iff_of_true (Block.setIll_ill b) (.inl hc)

/-- From ILL = 0, a write leaves ILL = 1 when it is that of an illegal word to CMD. -/
theorem writeEffect_ill_of_clear (r : Reg) (v : Word) {b : Block} (h : b.ill = false) :
    (writeEffect r v b).ill = true ↔ r = .cmd ∧ ¬ LegalWord v := by
  cases r with
  | cmd => simp [writeEffect, performEffect_ill, h]
  | status => simp [writeEffect, Block.writeStatus_eq, h]
  | operand | inLo | inHi | inAvail => simp [writeEffect, h]
  | outLo | outHi | count | result | reserved => simp [writeEffect, h]

/-- From ILL = 1, a write leaves ILL = 0 when it is one to STATUS with bit 0 = 1. -/
theorem writeEffect_ill_of_set (r : Reg) (v : Word) {b : Block} (h : b.ill = true) :
    (writeEffect r v b).ill = false ↔ r = .status ∧ v.toNat % 2 = 1 := by
  cases r with
  | cmd => simp [writeEffect, performEffect_ill, h, ← Bool.not_eq_true]
  | status =>
    rw [writeEffect, Block.writeStatus_eq, not_getLsbD_zero]
    simp [h]
  | operand | inLo | inHi | inAvail => simp [writeEffect, h]
  | outLo | outHi | count | result | reserved => simp [writeEffect, h]

/-! ### Which input changes what (R22 to R24, R54, R93) -/

theorem offset_eq_of_regAt {off off' : Offset} {r : Reg} (h : regAt off = some r) (h' : regAt off' = some r)
    (hr : r ≠ .reserved) : off = off' := by
  have hoff := regAt_eq_some.1 h
  have hoff' := regAt_eq_some.1 h'
  cases r with
  | reserved => exact absurd rfl hr
  | cmd | status | operand | inLo | inHi | inAvail | outLo | outHi | count | result => exact hoff.trans hoff'.symm

/-- Of the registers of the window map, only that of an offset stands at the offset. -/
theorem toNat_eq_iff_of_regAt {off : Offset} {r r' : Reg} {n : Nat} (h : regAt off = some r)
    (h' : regAt (BitVec.ofNat 7 n) = some r') (hr' : r' ≠ .reserved) (hn : n < 128) : off.toNat = n ↔ r = r' := by
  constructor
  · rintro rfl
    exact Option.some.inj (h.symm.trans (regAt_of_toNat rfl h'))
  · rintro rfl
    rw [offset_eq_of_regAt h h' hr', BitVec.toNat_ofNat, Nat.mod_eq_of_lt hn]

/-- Everything a step on a transaction that happens can be: the read of a register, or the write of one. -/
theorem step_access_cases {s t : State} {a : Transaction} {rest : List PortEvent}
    (hp : s.pending = .access a :: rest) (h : step s = .next t) :
    ∃ r, regAt a.off = some r ∧
      ((a.we = false ∧ t = (s.accept rest).answer (s.block.read r)) ∨
       (a.we = true ∧ t = (s.accept rest).onBlock (writeEffect r a.wdata))) := by
  obtain ⟨e, rest', hp', hcase⟩ := step_cases h
  cases hp.symm.trans hp'
  obtain ⟨he, -⟩ | ⟨a', r, he, -, hr, hwe, ht⟩ | ⟨a', r, he, -, hr, hwe, ht⟩ := hcase <;> cases he
  · exact ⟨r, hr, .inl ⟨hwe, ht⟩⟩
  · exact ⟨r, hr, .inr ⟨hwe, ht⟩⟩

/-- Settles O54: a read leaves the block, and a write changes the register at its offset. -/
theorem inputsChangeOnlyByTheirOwnWrites : Obligations.InputsChangeOnlyByTheirOwnWrites := by
  intro s t a rest hp hstep
  obtain ⟨r, hr, ⟨hwe, rfl⟩ | ⟨hwe, rfl⟩⟩ := step_access_cases hp hstep
  · simp [hwe]
  · have hoperand := toNat_eq_iff_of_regAt (n := 0x10) (r' := .operand) hr rfl (by decide) (by decide)
    have hinLo := toNat_eq_iff_of_regAt (n := 0x18) (r' := .inLo) hr rfl (by decide) (by decide)
    have hinHi := toNat_eq_iff_of_regAt (n := 0x20) (r' := .inHi) hr rfl (by decide) (by decide)
    have hinAvail := toNat_eq_iff_of_regAt (n := 0x28) (r' := .inAvail) hr rfl (by decide) (by decide)
    simp only [hwe, true_and, hoperand, hinLo, hinHi, hinAvail]
    exact writeEffect_inputs r a.wdata s.block

/-- Settles O55: a read answers and leaves the block, and a write answers nothing. -/
theorem onlyReadsAnswer : Obligations.OnlyReadsAnswer := by
  intro s t a rest hp hstep
  obtain ⟨r, -, ⟨hwe, rfl⟩ | ⟨hwe, rfl⟩⟩ := step_access_cases hp hstep <;> simp [hwe]

/-- Settles O52: reset clears ILL, a read leaves it, and of the writes only an illegal word sets it and only a STATUS
write with bit 0 = 1 clears it. -/
theorem illChangesOnlyByIllegalWordW1cOrReset : Obligations.IllChangesOnlyByIllegalWordW1cOrReset := by
  intro s t e rest hp hstep
  cases e with
  | reset =>
    rw [step_reset hp] at hstep
    cases hstep
    simp [Block.reset]
  | access a =>
    obtain ⟨r, hr, ⟨hwe, rfl⟩ | ⟨hwe, rfl⟩⟩ := step_access_cases hp hstep
    · exact ⟨fun hclear => by simp [hwe, hclear], fun hset => by simp [hwe, hset]⟩
    · have hcmd := toNat_eq_iff_of_regAt (n := 0x00) (r' := .cmd) hr rfl (by decide) (by decide)
      have hstatus := toNat_eq_iff_of_regAt (n := 0x08) (r' := .status) hr rfl (by decide) (by decide)
      refine ⟨fun hclear => ?_, fun hset => ?_⟩
      · simpa [hwe, hcmd] using writeEffect_ill_of_clear r a.wdata hclear
      · simpa [hwe, hstatus] using writeEffect_ill_of_set r a.wdata hset

end Sys2Proof.Proofs

namespace Sys2Proof.Proofs

open Sys2Proof.Machine Sys2Proof.Claims

/-! ### The commands of a width, by kind (R29, R120 to R125, R146 to R151, R172 to R177) -/

theorem exec_vencU (w : Width) (s : State) :
    exec (vencU w) s = .next (s.onBlock fun b => b.pack (encodeVarint w.bits (b.operandOf w.bits))) := by
  cases w <;> rfl

theorem exec_vdecU (w : Width) (s : State) :
    exec (vdecU w) s = .next (s.onBlock fun b =>
      b.setDecoded (decodeVarint w.bits b.inputSeq).1 (zext64 (decodeVarint w.bits b.inputSeq).2)) := by
  cases w <;> rfl

theorem exec_vencS (w : Width) (s : State) :
    exec (vencS w) s = .next (s.onBlock fun b => b.pack (encodeSvarint w.bits (b.operandOf w.bits))) := by
  cases w <;> rfl

theorem exec_vdecS (w : Width) (s : State) :
    exec (vdecS w) s = .next (s.onBlock fun b =>
      b.setDecoded (decodeSvarint w.bits b.inputSeq).1 (sext64 (decodeSvarint w.bits b.inputSeq).2)) := by
  cases w <;> rfl

theorem exec_zzenc (w : Width) (s : State) :
    exec (zzenc w) s = .next (s.onBlock fun b => b.setResult (zext64 (zigzagEncode w.bits (b.operandOf w.bits)))) := by
  cases w <;> rfl

theorem exec_zzdec (w : Width) (s : State) :
    exec (zzdec w) s = .next (s.onBlock fun b => b.setResult (sext64 (zigzagDecode w.bits (b.operandOf w.bits)))) := by
  cases w <;> rfl

/-- Every encode of a width packs the encoding of a code of its operand. -/
theorem exists_code_of_mem_encodes {w : Width} {i : Instr} (hi : i ∈ [vencU w, vencS w]) :
    ∃ code : BitVec w.bits → BitVec w.bits, ∀ s, exec i s =
      .next (s.onBlock fun b => b.pack (encodeVarint w.bits (code (b.operandOf w.bits)))) := by
  obtain rfl | rfl : i = vencU w ∨ i = vencS w := by simpa using hi
  · exact ⟨id, exec_vencU w⟩
  · exact ⟨zigzagEncode w.bits, exec_vencS w⟩

theorem sext64_zero (w : Width) : sext64 (0 : BitVec w.bits) = 0 :=
  BitVec.eq_of_toInt_eq (by rw [sext64_toInt]; simp)

/-- Every decode of a width latches what decode_varint of the input bytes gives, with the value widened in some way
that keeps 0. -/
theorem exists_widen_of_mem_decodes {w : Width} {i : Instr} (hi : i ∈ [vdecU w, vdecS w]) :
    ∃ widen : BitVec w.bits → Word, widen 0 = 0 ∧ ∀ s, exec i s = .next (s.onBlock fun b =>
      b.setDecoded (decodeVarint w.bits b.inputSeq).1 (widen (decodeVarint w.bits b.inputSeq).2)) := by
  obtain rfl | rfl : i = vdecU w ∨ i = vdecS w := by simpa using hi
  · exact ⟨zext64, by simp [zext64], exec_vdecU w⟩
  · exact ⟨fun v => sext64 (zigzagDecode w.bits v),
      (congrArg sext64 (zigzagDecode_zero w.bits)).trans (sext64_zero w), exec_vdecS w⟩

/-- Every zigzag command of a width latches a value of its operand. -/
theorem exists_value_of_mem_zigzags {w : Width} {i : Instr} (hi : i ∈ [zzenc w, zzdec w]) :
    ∃ value : BitVec w.bits → Word, ∀ s, exec i s =
      .next (s.onBlock fun b => b.setResult (value (b.operandOf w.bits))) := by
  obtain rfl | rfl : i = zzenc w ∨ i = zzdec w := by simpa using hi
  · exact ⟨fun p => zext64 (zigzagEncode w.bits p), exec_zzenc w⟩
  · exact ⟨fun p => sext64 (zigzagDecode w.bits p), exec_zzdec w⟩

/-! ### What a command's outputs depend on (R87, R88, R204, R223) -/

/-- Settles O42: an encode packs, and a zigzag command latches, a function of OPERAND[W-1:0]. -/
theorem valueCommandsReadOnlyLowOperand : Obligations.ValueCommandsReadOnlyLowOperand := by
  intro w s₁ s₂ t₁ t₂ hoperand
  have hop : s₁.block.operandOf w.bits = s₂.block.operandOf w.bits := hoperand
  refine ⟨fun i hi h₁ h₂ => ?_, fun i hi h₁ h₂ => ?_⟩
  · obtain ⟨code, hexec⟩ := exists_code_of_mem_encodes hi
    rw [hexec] at h₁ h₂
    cases h₁
    cases h₂
    simp [hop]
  · obtain ⟨value, hexec⟩ := exists_value_of_mem_zigzags hi
    rw [hexec] at h₁ h₂
    cases h₁
    cases h₂
    simp [hop]

/-- Blocks with as many available bytes, which agree on the first `n` of them, have the same first `n` input bytes. -/
theorem inputSeq_take_congr {b c : Block} {n : Nat} (havail : availableBytes b = availableBytes c)
    (hbyte : ∀ i < min (availableBytes b) n, inputByte b i = inputByte c i) :
    b.inputSeq.take n = c.inputSeq.take n := by
  have hlen : b.available = c.available := havail
  rw [Block.inputSeq, Block.inputSeq, ← List.map_take, ← List.map_take, ← hlen, List.take_range]
  refine List.map_congr_left fun i hi => BitVec.eq_of_toNat_eq ?_
  rw [inByte_toNat, inByte_toNat]
  refine hbyte i ?_
  rw [min_comm]
  exact List.mem_range.1 hi

/-- Settles O43: a decode reads the first G(W) of the available bytes alone. -/
theorem decodesReadOnlyAvailableBytes : Obligations.DecodesReadOnlyAvailableBytes := by
  intro w s₁ s₂ t₁ t₂ havail hbyte i hi h₁ h₂
  obtain ⟨widen, -, hexec⟩ := exists_widen_of_mem_decodes hi
  have hdec : decodeVarint w.bits s₁.block.inputSeq = decodeVarint w.bits s₂.block.inputSeq := by
    rw [← decodeVarint_take, inputSeq_take_congr havail hbyte, decodeVarint_take]
  rw [hexec] at h₁ h₂
  cases h₁
  cases h₂
  simp [hdec]

/-- Settles O44: with no byte available the decode is one of the empty sequence, which is unterminated. -/
theorem emptyInputDecodesToSentinel : Obligations.EmptyInputDecodesToSentinel := by
  intro w s havail i hi
  obtain ⟨widen, hzero, hexec⟩ := exists_widen_of_mem_decodes hi
  have hempty : s.block.inputSeq = [] := by simp [Block.inputSeq, Block.available, havail]
  have hdec : decodeVarint w.bits s.block.inputSeq = (0, 0) := decodeVarint_of_continuing (by simp [hempty])
  rw [hexec, State.onBlock, hdec, hzero]
  rfl

/-! ### Right after a command (R37) -/

theorem outputByte_pack_encodeVarint {w : Width} (b : Block) (u : BitVec w.bits) (k : Nat) :
    outputByte (b.pack (encodeVarint w.bits u)) k = if k < varintLen u.toNat then varintByte u.toNat k else 0 := by
  rw [outputByte_pack (encodeVarint_length_le_ten u), encodeVarint_map_toNat]
  split
  case isTrue hk => simp [hk]
  case isFalse hk => simp [hk]

theorem count_pack_encodeVarint {w : Width} (b : Block) (u : BitVec w.bits) :
    (b.pack (encodeVarint w.bits u)).count.toNat = varintLen u.toNat := by
  rw [Block.pack_count, count_toNat_of_le_ten (encodeVarint_length_le_ten u), encodeVarint_length]

theorem count_setDecoded_decodeVarint {w : Width} (b : Block) (seq : List Byte) (v : Word) :
    (b.setDecoded (decodeVarint w.bits seq).1 v).count.toNat = (decodeVarint w.bits seq).1 :=
  count_toNat_of_le_ten ((decodeVarint_consumed_le _ _).trans (groups_bits_le_ten w))

/-- Settles O51: after an encode the window holds the bytes of R112 and zeros, and after a decode a COUNT of 0 is that
of the sentinel (0, 0). -/
theorem outputsRightAfterCommand : Obligations.OutputsRightAfterCommand := by
  refine fun w s t => ⟨fun i hi h => ?_, fun i hi h => ?_⟩
  · obtain ⟨code, hexec⟩ := exists_code_of_mem_encodes hi
    rw [hexec] at h
    cases h
    have hpos := varintLen_pos (code (s.block.operandOf w.bits)).toNat
    simp only [State.onBlock_block, count_pack_encodeVarint, outputByte_pack_encodeVarint]
    refine ⟨hpos, varintLen_le_maxGroups _, ?_, fun k _ hk => if_neg hk.not_gt⟩
    rw [if_pos (by omega)]
    exact varintByte_lt (by omega)
  · obtain ⟨widen, hzero, hexec⟩ := exists_widen_of_mem_decodes hi
    rw [hexec] at h
    cases h
    have hcount := count_setDecoded_decodeVarint (w := w) s.block s.block.inputSeq
      (widen (decodeVarint w.bits s.block.inputSeq).2)
    rw [State.onBlock_block]
    refine ⟨?_, fun h0 => ?_⟩
    · rw [hcount, ← groups_bits_eq_maxGroups]
      exact decodeVarint_consumed_le _ _
    · rw [h0] at hcount
      rw [Block.setDecoded_result, decodeVarint_snd_eq_zero hcount.symm, hzero]

/-! ### Through the registers: outputs copied to inputs (R118, R144, R171) -/

/-- The input bytes after the copy are the output bytes before it (R58). -/
theorem inputByte_copyOutputs (s : State) (avail : Word) (i : Nat) :
    inputByte (copyOutputs s avail).block i = outputByte s.block i := by
  have houtHi : (zext64 s.block.outHi).toNat = s.block.outHi.toNat := zext64_toNat (w := .w16) s.block.outHi
  rw [outputByte, ← houtHi]
  rfl

/-- A packed sequence, copied to the inputs, is read back as far as IN_AVAIL says. -/
theorem inputSeq_copyOutputs {s : State} {b : Block} {bytes : List Byte} {avail : Word}
    (hpack : s.block = b.pack bytes) (hbytes : bytes.length ≤ 10) (havail : avail.toNat ≤ bytes.length) :
    (copyOutputs s avail).block.inputSeq = bytes.take avail.toNat := by
  have hA : availableBytes (copyOutputs s avail).block = avail.toNat := min_eq_left (havail.trans hbytes)
  refine List.ext_getElem (by rw [inputSeq_length, hA, List.length_take, min_eq_left havail]) fun i hi hi' => ?_
  have hlen : i < bytes.length := hi'.trans_le (List.length_take_le' _ _)
  apply BitVec.eq_of_toNat_eq
  rw [← List.getD_eq_getElem _ 0 hi, inputSeq_getD_toNat (inputSeq_length _ ▸ hi), inputByte_copyOutputs, hpack,
    outputByte_pack hbytes]
  simp [List.getD_eq_getElem?_getD, hlen]

/-- The whole of a packed encoding, with IN_AVAIL = COUNT. -/
theorem inputSeq_copyOutputs_count {w : Width} {s : State} {b : Block} {u : BitVec w.bits}
    (hpack : s.block = b.pack (encodeVarint w.bits u)) :
    (copyOutputs s (zext64 s.block.count)).block.inputSeq = encodeVarint w.bits u := by
  have havail : (zext64 s.block.count).toNat = (encodeVarint w.bits u).length := by
    rw [zext64, BitVec.toNat_setWidth_of_le (by decide), hpack, count_pack_encodeVarint, encodeVarint_length]
  rw [inputSeq_copyOutputs hpack (encodeVarint_length_le_ten u) havail.le, havail, List.take_length]

theorem decodeVarint_encodeVarint {w : Width} (u : BitVec w.bits) :
    decodeVarint w.bits (encodeVarint w.bits u) = ((encodeVarint w.bits u).length, u) := by
  have h := decodeVarint_encodeVarint_append u []
  rwa [List.append_nil, ← encodeVarint_length] at h

/-- Settles O45: the decode reads the bytes the encode packed, and gives back their number and the operand. -/
theorem unsignedRoundTripThroughRegisters : Obligations.UnsignedRoundTripThroughRegisters := by
  intro w s
  obtain ⟨t, henc, hpack⟩ : ∃ t, exec (vencU w) s = .next t ∧
      t.block = s.block.pack (encodeVarint w.bits (s.block.operandOf w.bits)) := ⟨_, exec_vencU w s, rfl⟩
  refine ⟨t, _, henc, exec_vdecU w _, ?_⟩
  rw [State.onBlock_block, inputSeq_copyOutputs_count hpack, decodeVarint_encodeVarint, hpack]
  exact ⟨rfl, (zext64_toNat _).trans (operandOf_toNat w s.block)⟩

/-- Settles O46: the decode reads the bytes the encode packed, and gives back their number and the signed operand. -/
theorem signedRoundTripThroughRegisters : Obligations.SignedRoundTripThroughRegisters := by
  intro w s
  obtain ⟨t, henc, hpack⟩ : ∃ t, exec (vencS w) s = .next t ∧
      t.block = s.block.pack (encodeSvarint w.bits (s.block.operandOf w.bits)) := ⟨_, exec_vencS w s, rfl⟩
  refine ⟨t, _, henc, exec_vdecS w _, ?_⟩
  rw [encodeSvarint] at hpack
  rw [State.onBlock_block, decodeSvarint, inputSeq_copyOutputs_count hpack, decodeVarint_encodeVarint,
    zigzagDecode_zigzagEncode, hpack]
  exact ⟨rfl, (sext64_toInt _).trans (operandOf_toInt w s.block)⟩

/-- Settles O47: the decode reads fewer bytes than the encode packed, which are continuation bytes. -/
theorem truncationThroughRegisters : Obligations.TruncationThroughRegisters := by
  intro w s t avail henc havail i hi
  obtain ⟨widen, hzero, hexec⟩ := exists_widen_of_mem_decodes hi
  have hpack : t.block = s.block.pack (encodeVarint w.bits (s.block.operandOf w.bits)) := by
    rw [exec_vencU] at henc
    cases henc
    rfl
  rw [hpack, count_pack_encodeVarint] at havail
  have hseq := inputSeq_copyOutputs hpack (encodeVarint_length_le_ten _)
    (havail.le.trans_eq (encodeVarint_length _).symm)
  refine ⟨_, hexec _, ?_⟩
  rw [State.onBlock_block, hseq, decodeVarint_take_encodeVarint havail, hzero]
  exact ⟨rfl, rfl⟩

/-- A W-bit value moved to OPERAND is the operand of width W. -/
theorem operandOf_of_operand_eq_zext64 {w : Width} {b : Block} {v : BitVec w.bits} (h : b.operand = zext64 v) :
    b.operandOf w.bits = v :=
  BitVec.eq_of_toNat_eq (by
    rw [operandOf_toNat, uintOperand, h, zext64_toNat, Nat.mod_eq_of_lt v.isLt])

/-- Settles O48: the code in RESULT is the operand of the decode, which gives back the signed operand. -/
theorem zigzagRoundTripThroughRegisters : Obligations.ZigzagRoundTripThroughRegisters := by
  intro w s
  refine ⟨_, _, exec_zzenc w s, exec_zzdec w _, ?_⟩
  rw [State.onBlock_block, Block.setResult_result, operandOf_of_operand_eq_zext64 rfl, zigzagDecode_zigzagEncode,
    sext64_toInt, operandOf_toInt]

end Sys2Proof.Proofs
